-- ==== Sys2Proof/Word.lean ====
section
/-! DEFINITION. The widths of the CORE: 8-bit data registers and bus data, 16-bit addresses (00_scope.md section 4,
`XLEN_REG`, `BYTE`, `XLEN_PC`). Byte order and sign extension stand in Machine/Operands.lean. -/

namespace Sys2Proof

/-- A byte: a data register, the stack pointer, a bus datum, an opcode (R10, R11, R12, R42). -/
abbrev Byte := BitVec 8

/-- A 16-bit value: the program counter, a bus address, a vector, an operand word (R14, R21, R85). -/
abbrev Word := BitVec 16

end Sys2Proof
end

