-- ==== Sys2Proof/Config.lean ====
section
/-! DEFINITION. What is fixed for the machine (the named constants of 00_scope.md section 4) and the one free value of the
spec, the answer of an I/O device (`IODEV`, R50, D7). -/

namespace Sys2Proof

/-- One access that reached an I/O region, as R50 asks for it to be "recorded in the event history": the caller's function
and handle it went to (R49), the absolute address it was given (D7) and the byte read or written. -/
inductive IoEvent where
  | read (fn handle : Nat) (addr : Word) (value : Byte)
  | write (fn handle : Nat) (addr : Word) (value : Byte)
  deriving DecidableEq, Repr

namespace Config

/-- `STACK_BASE`: the first address of the stack page (R12, R52). -/
def stackBase : Word := 0x0100

/-- `VEC_NMI` (R52, R208; D24, log 21). -/
def vecNmi : Word := 0xFFFA

/-- `VEC_RESET` (R52, R241; D24, log 21). -/
def vecReset : Word := 0xFFFC

/-- `VEC_IRQ` (R52, R207; D24, log 21). -/
def vecIrq : Word := 0xFFFE

/-- `SP_RESET`: SP after `reset`, the empty stack (R241). -/
def spReset : Byte := 0xFF

/-- `IRQ_HEADROOM`: the free bytes `irq` and `nmi` need in strict mode (R206). -/
def irqHeadroom : Nat := 3

/-- `FASTPATH_MIN`: the least length of the RAM region the source caches (R22; not architectural). -/
def fastPathMin : Nat := 512

/-- The number of bytes of the address space (R21). -/
def addressSpace : Nat := 65536

/-- FREE VALUE (R50, D7; log 4): what a device answers to a read. It is asked with the caller's read function and handle
(R49), the absolute address, and the whole history of I/O accesses made so far, so every device that answers from its
handle, the address and what was done to it before is one of its values. Nothing in the model constrains it. -/
opaque ioAnswer : (fn handle : Nat) → (addr : Word) → (history : List IoEvent) → Byte

end Config

end Sys2Proof
end

