-- ==== Sys2Proof/Machine/Operands.lean ====
section
/-! DEFINITION. Byte order, extension and the operand forms: how two bytes make a word (R5, R53, R85), the address of the
next operand byte (R84, R85), the zero-page address of a byte operand and the target of a relative branch (43_demo_table.md
R154, R175). -/

namespace Sys2Proof.Machine

/-- `hi(w)` = w[15:8] (R5). -/
def hiByte (w : Word) : Byte := w.extractLsb' 8 8

/-- `lo(w)` = w[7:0] (R5). -/
def loByte (w : Word) : Byte := w.extractLsb' 0 8

/-- `{hi, lo}` = hi * 256 + lo (R5). -/
def joinBytes (h l : Byte) : Word := h ++ l

/-- `zext_16(b)` (R5). -/
def zext16 (b : Byte) : Word := b.setWidth 16

/-- `sext_16(b)`: b if b < 128, else b + 0xFF00 (R5). -/
def sext16 (b : Byte) : Word := b.signExtend 16

/-- The address k bytes after `pc0`, modulo 65536 (R14, R84, R85; D3, log 9). -/
def codeAddr (pc0 : Word) (k : Nat) : Word := pc0 + BitVec.ofNat 16 k

/-- The zero-page address a byte operand names (R154, R156). -/
def zeroPageAddr (b : Byte) : Word := zext16 b

/-- The target of a relative branch whose next instruction is at `pc` (R175, R176). -/
def relativeTarget (pc : Word) (b : Byte) : Word := pc + sext16 b

end Sys2Proof.Machine
end

