-- ==== Sys2Proof/Syntax.lean ====
section
/-! DEFINITION. The syntax of the machine: opcode descriptors with their handlers (R80), where a handler is a program over
exactly the primitives the handler contract allows (R141, R142; log 1), and the instructions, one constructor per row of
spec/opcode_table.json. -/

namespace Sys2Proof

/-- The four 8-bit registers (R10, R11, R12). -/
inductive Reg where
  | a | x | y | sp
  deriving DecidableEq, Repr

/-- The seven flags (R15). -/
inductive Flag where
  | n | v | b | d | i | z | c
  deriving DecidableEq, Repr

/-- What a handler may compute with: registers, PC, flags, `Pack`, its operand and the answers it has had from the bus and
the stack (R141, R143). Every value is a 16-bit word, a byte being its zero extension and a flag 0 or 1 (log 1). -/
inductive Expr where
  | lit (w : Word)
  | reg (r : Reg)
  | pc
  | flag (f : Flag)
  /-- the operand the CORE assembled: 0 for `H0`, the byte b for `H1`, the word w for `H2` (R140) -/
  | operand
  /-- local variable `k` of this one invocation; every local starts at 0 -/
  | tmp (k : Nat)
  /-- `Pack(F)` (R16) -/
  | packed
  | lo (e : Expr)
  | hi (e : Expr)
  /-- `sext_16` of the low byte (R5) -/
  | sext (e : Expr)
  /-- 1 when the value is 0, else 0 -/
  | isZero (e : Expr)
  | add (e f : Expr)
  | sub (e f : Expr)
  | and (e f : Expr)
  | or (e f : Expr)
  | xor (e f : Expr)
  | shl (e f : Expr)
  | shr (e f : Expr)
  /-- 1 when equal, else 0 -/
  | eq (e f : Expr)
  /-- 1 when below as unsigned numbers, else 0 -/
  | ult (e f : Expr)
  deriving DecidableEq, Repr

/-- A handler's program: the primitives of R141 and nothing else. A register takes the low byte of a value, a flag is set
when the value is not 0. `strict`, `trace`, the regions and `OPTAB` cannot be named (R142). -/
inductive Prog where
  | skip
  | seq (p q : Prog)
  | setTmp (k : Nat) (e : Expr)
  | setReg (r : Reg) (e : Expr)
  | setPc (e : Expr)
  | setFlag (f : Flag) (e : Expr)
  /-- `Unpack` of the low byte (R17) -/
  | unpack (e : Expr)
  /-- local `k` takes `BusRead(addr)` (R42) -/
  | busRead (k : Nat) (addr : Expr)
  /-- `BusWrite(addr, low byte of v)` (R43) -/
  | busWrite (addr v : Expr)
  | pushByte (v : Expr)
  | pullByte (k : Nat)
  | pushWord (v : Expr)
  | pullWord (k : Nat)
  /-- `p` when the value of `e` is not 0, else `q` -/
  | cond (e : Expr) (p q : Prog)
  deriving DecidableEq, Repr

/-- A handler, tagged by the operand it takes (R80, R140): none, a byte, a word. -/
inductive Handler where
  | h0 (p : Prog)
  | h1 (p : Prog)
  | h2 (p : Prog)
  deriving DecidableEq, Repr

/-- An opcode descriptor (R80). -/
structure Descriptor where
  name : String
  length : Nat
  headroom : Int
  handler : Option Handler
  deriving DecidableEq, Repr

/-- The table `OPTAB` (R4) as plain data: the descriptors of the listed opcode bytes, the first entry of a byte counting;
an unlisted byte has no handler. `OpTab.entry` (Machine/Optab.lean) reads it as the total function R4 speaks of. -/
abbrev OpTab := List (Byte × Descriptor)

/-- The instructions, one constructor per row of spec/opcode_table.json. -/
inductive Instr where
  /-- generic row, format F1 (R105) -/
  | f1 (op : Byte)
  /-- generic row, format F2 (R106) -/
  | f2 (op b : Byte)
  /-- generic row, format F3 (R107) -/
  | f3 (op : Byte) (w : Word)
  /-- the illegal class: an opcode byte without a handler (R86, R102) -/
  | illegal (op : Byte)
  | nop
  | ldaImm (b : Byte)
  | ldxImm (b : Byte)
  | ldyImm (b : Byte)
  | ldaZp (b : Byte)
  | ldaAbs (w : Word)
  | staZp (b : Byte)
  | staAbs (w : Word)
  | tax
  | txs
  | tsx
  | inx
  | dex
  | clc
  | sec
  | cli
  | sei
  | pha
  | pla
  | php
  | plp
  | jmpAbs (w : Word)
  | jsrAbs (w : Word)
  | rts
  | rti
  | bneRel (b : Byte)
  | beqRel (b : Byte)
  deriving DecidableEq, Repr

end Sys2Proof
end

