-- ==== Sys2Proof/Machine/Optab.lean ====
section
/-! DEFINITION. Reading the descriptor table (R4, R80) and the demonstration table `DEMO` (43_demo_table.md R149 to R176),
whose handlers are programs over the primitives of R141. `DEMO` is the spec's own table (D1), not the repository's. -/

namespace Sys2Proof

/-- The length that goes with a handler's kind (R81): `H0` 1, `H1` 2, `H2` 3. -/
def Handler.length : Handler → Nat
  | .h0 _ => 1
  | .h1 _ => 2
  | .h2 _ => 3

/-- The program of a handler. -/
def Handler.prog : Handler → Prog
  | .h0 p => p
  | .h1 p => p
  | .h2 p => p

/-- The descriptor of an opcode byte the table does not list: no handler (R86). -/
def Descriptor.absent : Descriptor := { name := "", length := 1, headroom := 0, handler := none }

/-- `OPTAB[op]` (R4): the first listed entry of the opcode byte. -/
def OpTab.entry : OpTab → Byte → Descriptor
  | [], _ => Descriptor.absent
  | (k, d) :: rest, op => if k = op then d else OpTab.entry rest op

/-- Two descriptors the dispatcher cannot tell apart: the name is read by the tracer only (R80). -/
def Descriptor.same (d e : Descriptor) : Bool :=
  decide (d.length = e.length) && decide (d.headroom = e.headroom) && decide (d.handler = e.handler)

namespace Demo

/-- `SetZN` of a register's new value (43_demo_table.md). -/
def setZN (e : Expr) : Prog :=
  .seq (.setFlag .z (.isZero e)) (.setFlag .n (.and e (.lit 0x0080)))

/-- `r <- e; SetZN(r)`. -/
def load (r : Reg) (e : Expr) : Prog := .seq (.setReg r e) (setZN (.reg r))

/-- `A <- BusRead(operand); SetZN(A)` (R154, R155). -/
def loadMem : Prog := .seq (.busRead 0 .operand) (load .a (.tmp 0))

/-- `BusWrite(operand, A)` (R156, R157). -/
def storeMem : Prog := .busWrite .operand (.reg .a)

/-- `PC <- PC +_16 sext_16(b)` (R175, R176). -/
def branch : Prog := .setPc (.add .pc (.sext .operand))

/-- A descriptor of `DEMO`. -/
def row (op : Byte) (name : String) (headroom : Int) (h : Handler) : Byte × Descriptor :=
  (op, { name := name, length := h.length, headroom := headroom, handler := some h })

/-- R150 to R157. -/
def loadRows : OpTab :=
  [ row 0xEA "NOP" 0 (.h0 .skip)
  , row 0xA9 "LDA" 0 (.h1 (load .a .operand))
  , row 0xA2 "LDX" 0 (.h1 (load .x .operand))
  , row 0xA0 "LDY" 0 (.h1 (load .y .operand))
  , row 0xA5 "LDA" 0 (.h1 loadMem)
  , row 0xAD "LDA" 0 (.h2 loadMem)
  , row 0x85 "STA" 0 (.h1 storeMem)
  , row 0x8D "STA" 0 (.h2 storeMem) ]

/-- R158 to R162. -/
def transferRows : OpTab :=
  [ row 0xAA "TAX" 0 (.h0 (load .x (.reg .a)))
  , row 0x9A "TXS" 0 (.h0 (.setReg .sp (.reg .x)))
  , row 0xBA "TSX" 0 (.h0 (load .x (.reg .sp)))
  , row 0xE8 "INX" 0 (.h0 (load .x (.add (.reg .x) (.lit 1))))
  , row 0xCA "DEX" 0 (.h0 (load .x (.sub (.reg .x) (.lit 1)))) ]

/-- R163 to R166. -/
def flagRows : OpTab :=
  [ row 0x18 "CLC" 0 (.h0 (.setFlag .c (.lit 0)))
  , row 0x38 "SEC" 0 (.h0 (.setFlag .c (.lit 1)))
  , row 0x58 "CLI" 0 (.h0 (.setFlag .i (.lit 0)))
  , row 0x78 "SEI" 0 (.h0 (.setFlag .i (.lit 1))) ]

/-- R167 to R170. -/
def stackRows : OpTab :=
  [ row 0x48 "PHA" 1 (.h0 (.pushByte (.reg .a)))
  , row 0x68 "PLA" (-1) (.h0 (.seq (.pullByte 0) (load .a (.tmp 0))))
  , row 0x08 "PHP" 1 (.h0 (.pushByte .packed))
  , row 0x28 "PLP" (-1) (.h0 (.seq (.pullByte 0) (.unpack (.tmp 0)))) ]

/-- R171 to R176. -/
def controlRows : OpTab :=
  [ row 0x4C "JMP" 0 (.h2 (.setPc .operand))
  , row 0x20 "JSR" 2 (.h2 (.seq (.pushWord (.sub .pc (.lit 1))) (.setPc .operand)))
  , row 0x60 "RTS" (-2) (.h0 (.seq (.pullWord 0) (.setPc (.add (.tmp 0) (.lit 1)))))
  , row 0x40 "RTI" (-3)
      (.h0 (.seq (.pullByte 0) (.seq (.unpack (.tmp 0)) (.seq (.pullWord 1) (.setPc (.tmp 1))))))
  , row 0xD0 "BNE" 0 (.h1 (.cond (.flag .z) .skip branch))
  , row 0xF0 "BEQ" 0 (.h1 (.cond (.flag .z) branch .skip)) ]

/-- `DEMO` (R149): these 27 entries; the other 229 opcode bytes have no handler. -/
def table : OpTab := loadRows ++ transferRows ++ flagRows ++ stackRows ++ controlRows

end Demo

/-- Whether a descriptor of opcode byte `op` is the one `DEMO` gives that byte (log 26). -/
def Descriptor.isDemo (op : Byte) (d : Descriptor) : Bool :=
  (Demo.table.entry op).handler.isSome && d.same (Demo.table.entry op)

/-- The opcode byte of an instruction (R82; for the `DEMO` rows, R149's column "opcode"). -/
def Instr.opcode : Instr → Byte
  | .f1 op => op
  | .f2 op _ => op
  | .f3 op _ => op
  | .illegal op => op
  | .nop => 0xEA
  | .ldaImm _ => 0xA9
  | .ldxImm _ => 0xA2
  | .ldyImm _ => 0xA0
  | .ldaZp _ => 0xA5
  | .ldaAbs _ => 0xAD
  | .staZp _ => 0x85
  | .staAbs _ => 0x8D
  | .tax => 0xAA
  | .txs => 0x9A
  | .tsx => 0xBA
  | .inx => 0xE8
  | .dex => 0xCA
  | .clc => 0x18
  | .sec => 0x38
  | .cli => 0x58
  | .sei => 0x78
  | .pha => 0x48
  | .pla => 0x68
  | .php => 0x08
  | .plp => 0x28
  | .jmpAbs _ => 0x4C
  | .jsrAbs _ => 0x20
  | .rts => 0x60
  | .rti => 0x40
  | .bneRel _ => 0xD0
  | .beqRel _ => 0xF0

end Sys2Proof
end

