-- ==== Sys2Proof/WellFormed.lean ====
section
/-! DEFINITION. Well-formed descriptors and tables (R81, D23; log 20) and, relative to a table, well-formed instructions:
those the table's decoder can answer (R83, R86, R87; log 26). -/

namespace Sys2Proof

/-- R81: a present handler's kind matches the length (so the length is 1, 2 or 3) and the headroom is in range (D23). -/
def Descriptor.wf (d : Descriptor) : Bool :=
  match d.handler with
  | none => true
  | some h => decide (d.length = h.length) && decide (-128 ≤ d.headroom) && decide (d.headroom ≤ 127)

/-- `OPTAB` is well-formed (R81): every entry that `OpTab.entry` answers is. -/
def OpTab.wf (t : OpTab) : Bool := t.all fun e => (t.entry e.1).wf

/-- The entry of `op` is a well-formed one of format F`n` that `DEMO` does not name. -/
def Descriptor.isGeneric (n : Nat) (op : Byte) (d : Descriptor) : Bool :=
  match d.handler with
  | none => false
  | some h => decide (h.length = n) && decide (d.length = n) && !d.isDemo op

/-- An instruction is well-formed under a table when it is what the table makes of its bytes: a generic row for an entry
of its format (R105 to R107), the illegal class for a byte without a handler (R86), a `DEMO` row where the table's entry is
`DEMO`'s (R149). -/
def Instr.wf (t : OpTab) : Instr → Bool
  | .f1 op => (t.entry op).isGeneric 1 op
  | .f2 op _ => (t.entry op).isGeneric 2 op
  | .f3 op _ => (t.entry op).isGeneric 3 op
  | .illegal op => (t.entry op).handler.isNone
  | i => (t.entry i.opcode).isDemo i.opcode

end Sys2Proof
end

