-- ==== Sys2Proof/Decode.lean ====
section
/-! DEFINITION. The table-driven decoder (R82 to R87), total on any bytes and rejecting by name, and the encoder written
from the same rows. Decoding is a function of (`OPTAB`, the bytes) alone (R83). -/

namespace Sys2Proof

open Sys2Proof.Machine (hiByte loByte joinBytes)

/-- Why bytes are no instruction. -/
inductive DecodeError where
  /-- there is no opcode byte -/
  | noBytes
  /-- the operand bytes of this opcode are missing -/
  | truncated (op : Byte)
  /-- the table's entry has a handler whose kind does not match its length (R81) -/
  | illFormedEntry (op : Byte)
  deriving DecidableEq, Repr

/-- The `DEMO` rows of spec/opcode_table.json: opcode byte and instruction, from the byte operand b and the word operand w
(each row takes the one its format has, or none). -/
def demoRows : List (Byte × (Byte → Word → Instr)) :=
  [ (0xEA, fun _ _ => .nop)
  , (0xA9, fun b _ => .ldaImm b)
  , (0xA2, fun b _ => .ldxImm b)
  , (0xA0, fun b _ => .ldyImm b)
  , (0xA5, fun b _ => .ldaZp b)
  , (0xAD, fun _ w => .ldaAbs w)
  , (0x85, fun b _ => .staZp b)
  , (0x8D, fun _ w => .staAbs w)
  , (0xAA, fun _ _ => .tax)
  , (0x9A, fun _ _ => .txs)
  , (0xBA, fun _ _ => .tsx)
  , (0xE8, fun _ _ => .inx)
  , (0xCA, fun _ _ => .dex)
  , (0x18, fun _ _ => .clc)
  , (0x38, fun _ _ => .sec)
  , (0x58, fun _ _ => .cli)
  , (0x78, fun _ _ => .sei)
  , (0x48, fun _ _ => .pha)
  , (0x68, fun _ _ => .pla)
  , (0x08, fun _ _ => .php)
  , (0x28, fun _ _ => .plp)
  , (0x4C, fun _ w => .jmpAbs w)
  , (0x20, fun _ w => .jsrAbs w)
  , (0x60, fun _ _ => .rts)
  , (0x40, fun _ _ => .rti)
  , (0xD0, fun b _ => .bneRel b)
  , (0xF0, fun b _ => .beqRel b) ]

/-- The row of an opcode byte, if there is one. -/
def findRow : List (Byte × (Byte → Word → Instr)) → Byte → Option (Byte → Word → Instr)
  | [], _ => none
  | (k, f) :: rest, op => if k = op then some f else findRow rest op

/-- The constructor that stands for an instruction with this entry: the `DEMO` row where the entry is `DEMO`'s, else the
generic row (R87; log 26). -/
def nameRow (d : Descriptor) (op b : Byte) (w : Word) (generic : Instr) : Instr :=
  if d.isDemo op then
    match findRow demoRows op with
    | some f => f b w
    | none => generic
  else generic

/-- Decode the first instruction of a byte list, answering it with the bytes left (R82 to R86). -/
def decode (t : OpTab) : List Byte → Except DecodeError (Instr × List Byte)
  | [] => .error .noBytes
  | op :: rest =>
    let d := t.entry op
    match d.handler with
    | none => .ok (.illegal op, rest)
    | some h =>
      if d.length = h.length then
        match h with
        | .h0 _ => .ok (nameRow d op 0 0 (.f1 op), rest)
        | .h1 _ =>
          match rest with
          | b :: rest' => .ok (nameRow d op b 0 (.f2 op b), rest')
          | [] => .error (.truncated op)
        | .h2 _ =>
          match rest with
          | l :: h' :: rest' => .ok (nameRow d op 0 (joinBytes h' l) (.f3 op (joinBytes h' l)), rest')
          | _ => .error (.truncated op)
      else .error (.illFormedEntry op)

/-- The operand bytes of an instruction, lowest address first (R82, R84, R85). -/
def operandBytes : Instr → List Byte
  | .f2 _ b => [b]
  | .f3 _ w => [loByte w, hiByte w]
  | .ldaImm b => [b]
  | .ldxImm b => [b]
  | .ldyImm b => [b]
  | .ldaZp b => [b]
  | .ldaAbs w => [loByte w, hiByte w]
  | .staZp b => [b]
  | .staAbs w => [loByte w, hiByte w]
  | .jmpAbs w => [loByte w, hiByte w]
  | .jsrAbs w => [loByte w, hiByte w]
  | .bneRel b => [b]
  | .beqRel b => [b]
  | .f1 _ | .illegal _ | .nop | .tax | .txs | .tsx | .inx | .dex | .clc | .sec | .cli | .sei
  | .pha | .pla | .php | .plp | .rts | .rti => []

/-- The bytes of an instruction, the opcode byte first (R82). -/
def encode (i : Instr) : List Byte := i.opcode :: operandBytes i

/-- The number of bytes of an instruction (R82). -/
def Instr.length (i : Instr) : Nat := 1 + (operandBytes i).length

/-- The `n` bytes of a number, most significant first: R87's display order, "the opcode byte most significant" (log 22). -/
def tableBytes : Nat → Nat → List Byte
  | 0, _ => []
  | n + 1, w => BitVec.ofNat 8 (w / 256 ^ n) :: tableBytes n w

/-- The bytes in memory order of an instruction that spec/opcode_table.json numbers as `w` with `nbits` bits, followed by
zero bytes up to the longest instruction (log 22). -/
def instrBytes (nbits w : Nat) : List Byte :=
  let n := (nbits + 7) / 8
  tableBytes n w ++ List.replicate (3 - n) 0

/-- The instruction the decoder reads from a word of spec/opcode_table.json, under the table `State.reset` holds. -/
def decodeTableWord (nbits w : Nat) : Option Instr :=
  match decode Demo.table (instrBytes nbits w) with
  | .ok (i, _) => some i
  | .error _ => none

end Sys2Proof
end

