-- ==== Sys2Proof/Machine/State.lean ====
section
/-! DEFINITION. The state of the CORE as plain data (10_state.md section 7), with the table `OPTAB` and the I/O history
beside it, the reasons a step can stop, and the state after reset. -/

namespace Sys2Proof.Machine

/-- The seven stored flags (R15). -/
structure Flags where
  n : Bool
  v : Bool
  b : Bool
  d : Bool
  i : Bool
  z : Bool
  c : Bool
  deriving DecidableEq, Repr

/-- The bytes behind a RAM or ROM region: (offset from the region's start, byte) pairs, offsets strictly rising, no byte 0
listed. An unlisted offset reads as 0x00, the value R46 gives RAM at registration. -/
abbrev Memory := List Host.Cell

/-- What stands behind a region (R40): an owned buffer for RAM and ROM, the caller's handle and functions for I/O (R49).
A ROM region has no write handler. Handles and functions are the caller's own, so they are names here (log 5). -/
inductive Backing where
  | ram (bytes : Memory)
  | rom (bytes : Memory)
  | io (handle readFn writeFn : Nat)
  deriving DecidableEq, Repr

/-- A region (R40): it covers the addresses from `start` to `start + length`, half open. -/
structure Region where
  start : Word
  length : Nat
  backing : Backing
  deriving DecidableEq, Repr

/-- The state (10_state.md section 7). -/
structure State where
  /-- accumulator (R10) -/
  a : Byte
  /-- index register X (R11) -/
  x : Byte
  /-- index register Y (R11) -/
  y : Byte
  /-- stack pointer: the next free slot of the stack page (R12, R13) -/
  sp : Byte
  /-- program counter (R14) -/
  pc : Word
  /-- the seven flags (R15) -/
  flags : Flags
  /-- strict mode (R19) -/
  strict : Bool
  /-- trace mode (R20) -/
  trace : Bool
  /-- the region list, most recently registered first (R21, R41) -/
  regions : List Region
  /-- the parameter `OPTAB` (R4; log 1) -/
  optab : OpTab
  /-- the model's own: the history of I/O accesses, newest first (R50; log 4) -/
  events : List IoEvent
  deriving DecidableEq, Repr

def State.setA (v : Byte) (s : State) : State := { s with a := v }
def State.setX (v : Byte) (s : State) : State := { s with x := v }
def State.setY (v : Byte) (s : State) : State := { s with y := v }
def State.setSp (v : Byte) (s : State) : State := { s with sp := v }
def State.setPc (v : Word) (s : State) : State := { s with pc := v }
def State.setFlags (v : Flags) (s : State) : State := { s with flags := v }
/-- R19. -/
def State.setStrict (v : Bool) (s : State) : State := { s with strict := v }
/-- R20. -/
def State.setTrace (v : Bool) (s : State) : State := { s with trace := v }
def State.setRegions (v : List Region) (s : State) : State := { s with regions := v }
def State.setEvents (v : List IoEvent) (s : State) : State := { s with events := v }

/-- The three errors (R200). -/
inductive CoreError where
  /-- an opcode without a handler (R201) -/
  | unimplementedInstruction
  /-- strict mode, too little free stack (R202) -/
  | stackOverflow
  /-- strict mode, too little used stack (R203; `StackUndershoot` is the same error, 90_conflicts.md C2) -/
  | stackUnderflow
  deriving DecidableEq, Repr

/-- Why an operation ends without a next state. -/
inductive Fault where
  /-- One of the CORE's errors (R200), raised by the dispatcher's lookup (R102), by the strict check of the dispatcher
  (R103) or of `irq`/`nmi` (R206), and returned to the host. `after` is the state the operation leaves: the host goes on
  from it (R200). Safe: it is the spec's own outcome (log 12). -/
  | raised (e : CoreError) (after : State)
  /-- The model fault `BusMiss` (R51), raised by any bus access to an address no region covers: the operation has no
  defined result. Safe: no value is given to what the source leaves undefined (log 6). -/
  | busMiss (addr : Word)
  deriving DecidableEq, Repr

/-- What the model does not run. -/
inductive Refusal where
  /-- Raised by `exec` alone, for an instruction that has no meaning yet. Safe. -/
  | notModelled (mnemonic : String)
  /-- Raised by `step`: `OPTAB` is ill-formed, so the model does not run it (R81, D23; log 20). Safe. -/
  | illFormedOptab
  /-- Raised by `step` for bytes the decoder rejects; no well-formed table has any. Safe. -/
  | undecodable (e : DecodeError)
  /-- Raised by a generic row run under a table whose entry for its opcode byte has another format (R105 to R107 select
  by the entry; log 25). Safe. -/
  | formatMismatch (op : Byte)
  /-- Raised by `add_rom_data` when the host gives fewer bytes than the region is long (R47; log 24). Safe. -/
  | shortRomData
  deriving DecidableEq, Repr

/-- How an operation of the CORE ends. -/
abbrev Outcome := Host.Outcome State Fault Refusal

/-- The result of a bus access, or of anything made of bus accesses: a value and the state after, or a miss (R51). -/
inductive Bus (α : Type) where
  | done (v : α) (s : State)
  | miss (addr : Word)
  deriving DecidableEq, Repr

/-- The registers, flags and controls right after `reset` (R241), over the launch platform: one RAM region of 64 KB,
nothing written (log 3), so that `ReadVector(0xFFFC)` is 0x0000 (R244), with strict and trace as `init` leaves them (R19,
R20) and `OPTAB` = `DEMO` (log 2). -/
def State.reset : State where
  a := 0
  x := 0
  y := 0
  sp := Config.spReset
  pc := 0
  flags := { n := false, v := false, b := false, d := false, i := true, z := false, c := false }
  strict := false
  trace := false
  regions := [{ start := 0, length := Config.addressSpace, backing := .ram [] }]
  optab := Demo.table
  events := []

end Sys2Proof.Machine
end

