-- ==== Sys2Proof/Machine/Flags.lean ====
section
/-! DEFINITION. The flag computations: `Pack` and `Unpack` (R16, R17), the flags by name, and `SetZN` (43_demo_table.md). -/

namespace Sys2Proof.Machine

/-- `Pack(F)` = {N, V, 1, B, D, I, Z, C} (R16). -/
def pack (f : Flags) : Byte :=
  BitVec.ofNat 8
    (128 * f.n.toNat + 64 * f.v.toNat + 32 + 16 * f.b.toNat + 8 * f.d.toNat + 4 * f.i.toNat + 2 * f.z.toNat + f.c.toNat)

/-- `Unpack(b)`: every flag from its bit, bit 5 not looked at (R17). -/
def unpack (b : Byte) : Flags where
  n := b.getLsbD 7
  v := b.getLsbD 6
  b := b.getLsbD 4
  d := b.getLsbD 3
  i := b.getLsbD 2
  z := b.getLsbD 1
  c := b.getLsbD 0

/-- All seven flags 0 (R240). -/
def Flags.clear : Flags :=
  { n := false, v := false, b := false, d := false, i := false, z := false, c := false }

/-- The value of a named flag. -/
def Flags.get (f : Flags) : Flag → Bool
  | .n => f.n
  | .v => f.v
  | .b => f.b
  | .d => f.d
  | .i => f.i
  | .z => f.z
  | .c => f.c

/-- Write one named flag, leaving the other six. -/
def Flags.set (f : Flags) (k : Flag) (v : Bool) : Flags :=
  match k with
  | .n => { f with n := v }
  | .v => { f with v := v }
  | .b => { f with b := v }
  | .d => { f with d := v }
  | .i => { f with i := v }
  | .z => { f with z := v }
  | .c => { f with c := v }

/-- `SetZN(v)`: Z is 1 when v is 0, N is v[7] (43_demo_table.md, shorthand). -/
def Flags.setZN (f : Flags) (v : Byte) : Flags := { f with z := v == 0, n := v.getLsbD 7 }

/-- `SetZN(v)` on the state. -/
def State.setZN (v : Byte) (s : State) : State := s.setFlags (s.flags.setZN v)

/-- `F.k <- v` on the state. -/
def State.setFlag (k : Flag) (v : Bool) (s : State) : State := s.setFlags (s.flags.set k v)

end Sys2Proof.Machine
end

