-- ==== Sys2Proof/Machine/Ops.lean ====
section
/-! DEFINITION. The operations the instructions and the host share: registers by name, region memory, the bus (20_memory.md),
the stack unit (41_stack_unit.md), the strict check (R103), interrupt entry and return (R206, R213), `reset` (R241), fetching
an instruction (R100 lines 1 to 5), and running an instruction's own effect. -/

namespace Sys2Proof.Machine

/-! ## Results -/

/-- Go on after an access; a miss ends the operation (R51). -/
def Bus.bind {α β : Type} (r : Bus α) (k : α → State → Bus β) : Bus β :=
  match r with
  | .done v s => k v s
  | .miss a => .miss a

/-- An operation made of accesses, as an outcome: `OK` with the state after, or the model fault (R51). -/
def Bus.toOutcome {α : Type} : Bus α → Outcome
  | .done _ s => .next s
  | .miss a => .fault (.busMiss a)

/-- `raise E` (R5, R200): the operation ends, and nothing further is written. -/
def raise (e : CoreError) (s : State) : Outcome := .fault (.raised e s)

/-! ## Registers by name (R10 to R12) -/

def State.getReg (s : State) : Reg → Byte
  | .a => s.a
  | .x => s.x
  | .y => s.y
  | .sp => s.sp

def State.setReg (r : Reg) (v : Byte) (s : State) : State :=
  match r with
  | .a => s.setA v
  | .x => s.setX v
  | .y => s.setY v
  | .sp => s.setSp v

/-! ## Region memory (R44 to R47) -/

/-- The byte at an offset: the listed one, else 0x00 (R46). -/
def Memory.get : Memory → Nat → Byte
  | [], _ => 0
  | (j, u) :: m, k => if j = k then u else Memory.get m k

/-- The memory without an entry for an offset. -/
def Memory.erase (m : Memory) (k : Nat) : Memory := m.filter fun c => c.1 != k

/-- Put an entry in its place among rising offsets. -/
def Memory.insert : Memory → Nat → Byte → Memory
  | [], k, v => [(k, v)]
  | (j, u) :: m, k, v => if j < k then (j, u) :: Memory.insert m k v else (k, v) :: (j, u) :: m

/-- Write the byte at an offset (R44), keeping the canonical form: storing 0x00, what an unlisted offset reads as, takes
the entry out. -/
def Memory.set (m : Memory) (k : Nat) (v : Byte) : Memory :=
  if v = 0 then m.erase k else (m.erase k).insert k v

/-- The memory whose byte at offset `k + i` is the `i`-th byte of the list, and 0x00 elsewhere (R47). -/
def Memory.ofBytes : Nat → List Byte → Memory
  | _, [] => []
  | k, v :: vs => if v = 0 then Memory.ofBytes (k + 1) vs else (k, v) :: Memory.ofBytes (k + 1) vs

/-- The canonical form: offsets strictly rising, no byte listed that an unlisted offset reads as. -/
abbrev Memory.wf (m : Memory) : Prop := m.Pairwise (fun c d => c.1 < d.1) ∧ ∀ c ∈ m, c.2 ≠ 0

/-- A region covers an address (R40), computed in the integers, without wrap-around. -/
def Region.covers (r : Region) (a : Word) : Bool :=
  decide (r.start.toNat ≤ a.toNat) && decide (a.toNat < r.start.toNat + r.length)

/-- The offset of an address from the region's start (R44). -/
def Region.offset (r : Region) (a : Word) : Nat := a.toNat - r.start.toNat

/-- The bytes of a region's own buffer; an I/O region has none. -/
def Region.memory (r : Region) : Memory :=
  match r.backing with
  | .ram m => m
  | .rom m => m
  | .io _ _ _ => []

/-- Whether a region is plain memory (RAM or ROM), so that reading it has no side effect (R58). -/
def Region.isPlain (r : Region) : Bool :=
  match r.backing with
  | .io _ _ _ => false
  | _ => true

/-- Whether a region is RAM. -/
def Region.isRam (r : Region) : Bool :=
  match r.backing with
  | .ram _ => true
  | _ => false

/-- The write handler of a RAM region (R44); ROM and I/O regions own no byte that a write changes (R45, R50). -/
def Region.store (r : Region) (a : Word) (v : Byte) : Region :=
  match r.backing with
  | .ram m => { r with backing := .ram (m.set (r.offset a) v) }
  | _ => r

/-- The byte a region's own buffer holds for an address. -/
def Region.load (r : Region) (a : Word) : Byte := r.memory.get (r.offset a)

/-- A region's buffer is canonical and lists no offset outside the region. -/
abbrev Region.wf (r : Region) : Prop := r.memory.wf ∧ ∀ c ∈ r.memory, c.1 < r.length

/-- `Resolve(a)` (R41): the first region, front to back, that covers the address. -/
def resolve : List Region → Word → Option Region
  | [], _ => none
  | r :: rs, a => if r.covers a then some r else resolve rs a

/-- The region list after a byte is written through the first covering region (R41, R43). -/
def storeFirst : List Region → Word → Byte → List Region
  | [], _, _ => []
  | r :: rs, a, v => if r.covers a then r.store a v :: rs else r :: storeFirst rs a v

/-! ## The bus (R42, R43, R53) -/

/-- `IoRead(r, a)` (R49, R50; log 4): the device's answer is a free value, recorded in the history. -/
def ioRead (readFn handle : Nat) (a : Word) (s : State) : Bus Byte :=
  let v := Config.ioAnswer readFn handle a s.events
  .done v (s.setEvents (.read readFn handle a v :: s.events))

/-- `IoWrite(r, a, v)` (R49, R50; log 5): recorded, with no effect on the CORE's own state. -/
def ioWrite (writeFn handle : Nat) (a : Word) (v : Byte) (s : State) : Bus Unit :=
  .done () (s.setEvents (.write writeFn handle a v :: s.events))

/-- `BusRead(a)` (R42). -/
def busRead (a : Word) (s : State) : Bus Byte :=
  match resolve s.regions a with
  | none => .miss a
  | some r =>
    match r.backing with
    | .ram m => .done (m.get (r.offset a)) s
    | .rom m => .done (m.get (r.offset a)) s
    | .io handle readFn _ => ioRead readFn handle a s

/-- `BusWrite(a, v)` (R43): a write to ROM is ignored (R45, D6; log 7). -/
def busWrite (a : Word) (v : Byte) (s : State) : Bus Unit :=
  match resolve s.regions a with
  | none => .miss a
  | some r =>
    match r.backing with
    | .ram _ => .done () (s.setRegions (storeFirst s.regions a v))
    | .rom _ => .done () s
    | .io handle _ writeFn => ioWrite writeFn handle a v s

/-- `ReadVector(a)` (R53): low byte first (D4; log 8). -/
def readVector (a : Word) (s : State) : Bus Word :=
  (busRead a s).bind fun l s1 =>
  (busRead (a + 1) s1).bind fun h s2 =>
  .done (joinBytes h l) s2

/-- The `n` bytes from an address on, in rising order, the address wrapping modulo 65536 (R84, R85; D3, log 9). -/
def readBytes : Nat → Word → State → Bus (List Byte)
  | 0, _, s => .done [] s
  | n + 1, a, s =>
    (busRead a s).bind fun b s1 =>
    (readBytes n (a + 1) s1).bind fun bs s2 =>
    .done (b :: bs) s2

/-- What plain memory holds at an address, read without any side effect: nothing where no region or an I/O region answers.
This is no operation of the CORE; statements about memory are made through it. -/
def State.peek (s : State) (a : Word) : Option Byte :=
  match resolve s.regions a with
  | none => none
  | some r => if r.isPlain then some (r.load a) else none

/-- Some region covers the address. -/
def State.mapped (s : State) (a : Word) : Prop := (resolve s.regions a).isSome = true

/-- Every address is covered by some region. -/
def State.fullyMapped (s : State) : Prop := ∀ a, s.mapped a

/-- The address resolves to RAM. -/
def State.isRamAt (s : State) (a : Word) : Prop := ∃ r, resolve s.regions a = some r ∧ r.isRam = true

/-! ## The stack unit (41_stack_unit.md) -/

/-- The stack location an SP value designates (R12): 0x0100 + SP. -/
def stackAddr (sp : Byte) : Word := Config.stackBase + zext16 sp

/-- `PushByte(v)` (R130). -/
def pushByte (v : Byte) (s : State) : Bus Unit :=
  (busWrite (stackAddr s.sp) v s).bind fun _ s1 => .done () (s1.setSp (s1.sp - 1))

/-- `PullByte()` (R131). -/
def pullByte (s : State) : Bus Byte := busRead (stackAddr (s.sp + 1)) (s.setSp (s.sp + 1))

/-- `PushWord(w)` (R132): the high byte first. -/
def pushWord (w : Word) (s : State) : Bus Unit :=
  (pushByte (hiByte w) s).bind fun _ s1 => pushByte (loByte w) s1

/-- `PullWord()` (R133): the low byte first. -/
def pullWord (s : State) : Bus Word :=
  (pullByte s).bind fun l s1 =>
  (pullByte s1).bind fun h s2 =>
  .done (joinBytes h l) s2

/-- `StackFree()` (R134). -/
def State.stackFree (s : State) : Nat := s.sp.toNat

/-- `StackUsed()` (R135). -/
def State.stackUsed (s : State) : Nat := 0xFF - s.sp.toNat

/-- The strict-mode stack check (R103): the error it raises, if it does. -/
def stackCheck (headroom : Int) (s : State) : Option CoreError :=
  if s.strict = true ∧ headroom ≠ 0 then
    if 0 < headroom ∧ (s.stackFree : Int) < headroom then some .stackOverflow
    else if headroom < 0 ∧ (s.stackUsed : Int) < -headroom then some .stackUnderflow
    else none
  else none

/-! ## Interrupts and reset (R206 to R213, R241) -/

/-- What an interrupt does once it is let in (R206): the frame pushed, I set after the status is packed, PC from the
vector. -/
def enterInterrupt (vector : Word) (s : State) : Bus Unit :=
  (pushWord s.pc s).bind fun _ s1 =>
  (pushByte (pack s1.flags) s1).bind fun _ s2 =>
  (readVector vector (s2.setFlag .i true)).bind fun target s3 =>
  .done () (s3.setPc target)

/-- `Interrupt(V)` (R206), the one entry `irq` and `nmi` share. -/
def interrupt (vector : Word) (s : State) : Outcome :=
  if s.strict = true ∧ s.stackFree < Config.irqHeadroom then raise .stackOverflow s
  else (enterInterrupt vector s).toOutcome

/-- Undo the frame (R213): `Unpack(PullByte())`, then `PC <- PullWord()`. -/
def returnFromInterrupt (s : State) : Bus Unit :=
  (pullByte s).bind fun status s1 =>
  (pullWord (s1.setFlags (unpack status))).bind fun target s2 =>
  .done () (s2.setPc target)

/-- The register writes of `reset` (R241), PC from the vector's value. -/
def State.afterReset (target : Word) (s : State) : State :=
  (((((s.setPc target).setA 0).setX 0).setY 0).setFlags { Flags.clear with i := true }).setSp Config.spReset

/-- `reset` (R241). -/
def resetCore (s : State) : Bus Unit :=
  (readVector Config.vecReset s).bind fun target s1 => .done () (s1.afterReset target)

/-! ## Running an instruction (R100 lines 3 to 6) -/

/-- An instruction of a given length and declared headroom, with its own effect: the strict check (R103), the PC advance
(R104), then the handler (R105 to R107). The trace line of R108 is no state (log 16). -/
def runInstr (length : Nat) (headroom : Int) (effect : State → Bus Unit) (s : State) : Outcome :=
  match stackCheck headroom s with
  | some e => raise e s
  | none => (effect (s.setPc (codeAddr s.pc length))).toOutcome

/-! ## Fetching an instruction (R100 lines 1, 2, 3, 5) -/

/-- What fetching comes to: an instruction with the state after its bytes were read, an outcome of its own, or bytes the
decoder rejects. -/
inductive Fetched where
  | instr (i : Instr) (s : State)
  | stop (f : Fault)
  | rejected (e : DecodeError)
  deriving DecidableEq, Repr

/-- Fetch the instruction at PC. The opcode byte is read first (R101); a byte without a handler and a failed stack check
end the step before any operand byte is read (R102, R103); the operand bytes follow, lowest address first (R106, R107; log
27). -/
def fetch (s : State) : Fetched :=
  match busRead s.pc s with
  | .miss a => .stop (.busMiss a)
  | .done op s1 =>
    let d := s1.optab.entry op
    match d.handler with
    | none => .instr (.illegal op) s1
    | some _ =>
      match stackCheck d.headroom s1 with
      | some e => .stop (.raised e s1)
      | none =>
        match readBytes (d.length - 1) (codeAddr s.pc 1) s1 with
        | .miss a => .stop (.busMiss a)
        | .done bs s2 =>
          match decode s2.optab (op :: bs) with
          | .ok (i, _) => .instr i s2
          | .error e => .rejected e

end Sys2Proof.Machine
end

