-- ==== Sys2Proof/Machine/Control.lean ====
section
/-! DEFINITION. `DEMO`'s control transfer (43_demo_table.md R171 to R176). PC is already advanced when an effect runs
(R104). -/

namespace Sys2Proof.Machine

/-- R171. -/
def execJmpAbs (w : Word) (s : State) : Outcome := runInstr 3 0 (fun t => .done () (t.setPc w)) s

/-- R172: the pushed word is the address of the instruction's last byte. -/
def execJsrAbs (w : Word) (s : State) : Outcome :=
  runInstr 3 2 (fun t => (pushWord (t.pc - 1) t).bind fun _ u => .done () (u.setPc w)) s

/-- R173. -/
def execRts (s : State) : Outcome :=
  runInstr 1 (-2) (fun t => (pullWord t).bind fun w u => .done () (u.setPc (w + 1))) s

/-- R174: the return from interrupt (R213). -/
def execRti (s : State) : Outcome := runInstr 1 (-3) returnFromInterrupt s

/-- Branch to the relative target when the condition holds. -/
def branchIf (taken : Bool) (b : Byte) (t : State) : State :=
  if taken then t.setPc (relativeTarget t.pc b) else t

/-- R175. -/
def execBneRel (b : Byte) (s : State) : Outcome := runInstr 2 0 (fun t => .done () (branchIf (!t.flags.z) b t)) s

/-- R176. -/
def execBeqRel (b : Byte) (s : State) : Outcome := runInstr 2 0 (fun t => .done () (branchIf t.flags.z b t)) s

end Sys2Proof.Machine
end

