-- ==== Sys2Proof/Machine/FlagOps.lean ====
section
/-! DEFINITION. `DEMO`'s flag operations (43_demo_table.md R163 to R166). -/

namespace Sys2Proof.Machine

/-- R163. -/
def execClc (s : State) : Outcome := runInstr 1 0 (fun t => .done () (t.setFlag .c false)) s

/-- R164. -/
def execSec (s : State) : Outcome := runInstr 1 0 (fun t => .done () (t.setFlag .c true)) s

/-- R165: the CORE does not consult I (R209). -/
def execCli (s : State) : Outcome := runInstr 1 0 (fun t => .done () (t.setFlag .i false)) s

/-- R166. -/
def execSei (s : State) : Outcome := runInstr 1 0 (fun t => .done () (t.setFlag .i true)) s

end Sys2Proof.Machine
end

