-- ==== Sys2Proof/Machine/Handler.lean ====
section
/-! DEFINITION. What a handler of `OPTAB` does (R140 to R143): the meaning of a handler's program over the primitives of
R141 (log 1). -/

namespace Sys2Proof.Machine

/-- The local variables of one invocation; a handler keeps none between invocations (R142). -/
abbrev Locals := Nat → Word

/-- Every local starts at 0 (log 1). -/
def Locals.init : Locals := fun _ => 0

def Locals.set (l : Locals) (k : Nat) (v : Word) : Locals := fun j => if j = k then v else l j

/-- A Boolean as 0 or 1 (R5: "a flag is a Boolean, written 0 or 1"). -/
def boolWord (b : Bool) : Word := if b then 1 else 0

/-- The value of an expression: a function of the registers, the flags, the operand and the answers so far (R143). -/
def evalExpr (operand : Word) (l : Locals) (s : State) : Expr → Word
  | .lit w => w
  | .reg r => zext16 (s.getReg r)
  | .pc => s.pc
  | .flag f => boolWord (s.flags.get f)
  | .operand => operand
  | .tmp k => l k
  | .packed => zext16 (pack s.flags)
  | .lo e => zext16 (loByte (evalExpr operand l s e))
  | .hi e => zext16 (hiByte (evalExpr operand l s e))
  | .sext e => sext16 (loByte (evalExpr operand l s e))
  | .isZero e => boolWord (evalExpr operand l s e == 0)
  | .add e f => evalExpr operand l s e + evalExpr operand l s f
  | .sub e f => evalExpr operand l s e - evalExpr operand l s f
  | .and e f => evalExpr operand l s e &&& evalExpr operand l s f
  | .or e f => evalExpr operand l s e ||| evalExpr operand l s f
  | .xor e f => evalExpr operand l s e ^^^ evalExpr operand l s f
  | .shl e f => evalExpr operand l s e <<< (evalExpr operand l s f).toNat
  | .shr e f => evalExpr operand l s e >>> (evalExpr operand l s f).toNat
  | .eq e f => boolWord (evalExpr operand l s e == evalExpr operand l s f)
  | .ult e f => boolWord (BitVec.ult (evalExpr operand l s e) (evalExpr operand l s f))

/-- Run a handler's program: the locals and the state after, or the miss one of its accesses met (R143). -/
def runProg (operand : Word) : Prog → Locals → State → Bus Locals
  | .skip, l, s => .done l s
  | .seq p q, l, s => (runProg operand p l s).bind fun l1 s1 => runProg operand q l1 s1
  | .setTmp k e, l, s => .done (l.set k (evalExpr operand l s e)) s
  | .setReg r e, l, s => .done l (s.setReg r (loByte (evalExpr operand l s e)))
  | .setPc e, l, s => .done l (s.setPc (evalExpr operand l s e))
  | .setFlag f e, l, s => .done l (s.setFlag f (evalExpr operand l s e != 0))
  | .unpack e, l, s => .done l (s.setFlags (unpack (loByte (evalExpr operand l s e))))
  | .busRead k e, l, s => (busRead (evalExpr operand l s e) s).bind fun v s1 => .done (l.set k (zext16 v)) s1
  | .busWrite e v, l, s =>
    (busWrite (evalExpr operand l s e) (loByte (evalExpr operand l s v)) s).bind fun _ s1 => .done l s1
  | .pushByte v, l, s => (pushByte (loByte (evalExpr operand l s v)) s).bind fun _ s1 => .done l s1
  | .pullByte k, l, s => (pullByte s).bind fun v s1 => .done (l.set k (zext16 v)) s1
  | .pushWord v, l, s => (pushWord (evalExpr operand l s v) s).bind fun _ s1 => .done l s1
  | .pullWord k, l, s => (pullWord s).bind fun v s1 => .done (l.set k v) s1
  | .cond e p q, l, s => if evalExpr operand l s e != 0 then runProg operand p l s else runProg operand q l s

/-- Invoke a handler with the operand the CORE assembled (R140), PC already advanced. -/
def invoke (h : Handler) (operand : Word) (s : State) : Bus Unit :=
  (runProg operand h.prog Locals.init s).bind fun _ s1 => .done () s1

/-- Run the handler the table gives an opcode byte, for an instruction of format F`n` with its operand (R105 to R107). A
byte without a handler is unimplemented (R102); a table whose entry has another format does not make this instruction of
the byte (R83; log 25). -/
def runEntry (n : Nat) (op : Byte) (operand : Word) (s : State) : Outcome :=
  let d := s.optab.entry op
  match d.handler with
  | none => raise .unimplementedInstruction s
  | some h =>
    if d.length = n ∧ h.length = n then runInstr n d.headroom (invoke h operand) s
    else .refused (.formatMismatch op)

end Sys2Proof.Machine
end

