-- ==== Sys2Proof/Machine/Formats.lean ====
section
/-! DEFINITION. The generic rows of the opcode table: the three formats (R105, R106, R107), whose meaning is the table's
handler, and the illegal class (R102). -/

namespace Sys2Proof.Machine

/-- Format F1 (R105): no operand. -/
def execF1 (op : Byte) (s : State) : Outcome := runEntry 1 op 0 s

/-- Format F2 (R106): the byte b, handed on unchanged (R84). -/
def execF2 (op b : Byte) (s : State) : Outcome := runEntry 2 op (zext16 b) s

/-- Format F3 (R107): the word w (R85). -/
def execF3 (op : Byte) (w : Word) (s : State) : Outcome := runEntry 3 op w s

/-- The illegal class (R86, R102, R201): `UnimplementedInstruction`, in either mode and whatever SP is, and no state
changed. -/
def execIllegal (_op : Byte) (s : State) : Outcome := raise .unimplementedInstruction s

end Sys2Proof.Machine
end

