-- ==== Sys2Proof/Machine/LoadStore.lean ====
section
/-! DEFINITION. `DEMO`'s NOP, loads and stores (43_demo_table.md R150 to R157). -/

namespace Sys2Proof.Machine

/-- R150. -/
def execNop (s : State) : Outcome := runInstr 1 0 (fun t => .done () t) s

/-- `A <- v; SetZN(A)`. -/
def loadA (v : Byte) (s : State) : State := (s.setA v).setZN v

/-- `X <- v; SetZN(X)`. -/
def loadX (v : Byte) (s : State) : State := (s.setX v).setZN v

/-- `Y <- v; SetZN(Y)`. -/
def loadY (v : Byte) (s : State) : State := (s.setY v).setZN v

/-- R151. -/
def execLdaImm (b : Byte) (s : State) : Outcome := runInstr 2 0 (fun t => .done () (loadA b t)) s

/-- R152. -/
def execLdxImm (b : Byte) (s : State) : Outcome := runInstr 2 0 (fun t => .done () (loadX b t)) s

/-- R153. -/
def execLdyImm (b : Byte) (s : State) : Outcome := runInstr 2 0 (fun t => .done () (loadY b t)) s

/-- `A <- BusRead(addr); SetZN(A)`. -/
def loadFrom (addr : Word) (s : State) : Bus Unit := (busRead addr s).bind fun v t => .done () (loadA v t)

/-- R154. -/
def execLdaZp (b : Byte) (s : State) : Outcome := runInstr 2 0 (loadFrom (zeroPageAddr b)) s

/-- R155. -/
def execLdaAbs (w : Word) (s : State) : Outcome := runInstr 3 0 (loadFrom w) s

/-- `BusWrite(addr, A)`. -/
def storeTo (addr : Word) (s : State) : Bus Unit := busWrite addr s.a s

/-- R156. -/
def execStaZp (b : Byte) (s : State) : Outcome := runInstr 2 0 (storeTo (zeroPageAddr b)) s

/-- R157. -/
def execStaAbs (w : Word) (s : State) : Outcome := runInstr 3 0 (storeTo w) s

end Sys2Proof.Machine
end

