-- ==== Sys2Proof/Machine/StackOps.lean ====
section
/-! DEFINITION. `DEMO`'s stack instructions (43_demo_table.md R167 to R170). -/

namespace Sys2Proof.Machine

/-- R167. -/
def execPha (s : State) : Outcome := runInstr 1 1 (fun t => pushByte t.a t) s

/-- R168. -/
def execPla (s : State) : Outcome :=
  runInstr 1 (-1) (fun t => (pullByte t).bind fun v u => .done () (loadA v u)) s

/-- R169: the pushed byte is `Pack(F)`, with bit 4 the stored flag B. -/
def execPhp (s : State) : Outcome := runInstr 1 1 (fun t => pushByte (pack t.flags) t) s

/-- R170: all seven flags, B among them, from the pulled byte. -/
def execPlp (s : State) : Outcome :=
  runInstr 1 (-1) (fun t => (pullByte t).bind fun v u => .done () (u.setFlags (unpack v))) s

end Sys2Proof.Machine
end

