-- ==== Sys2Proof/Machine/Transfers.lean ====
section
/-! DEFINITION. `DEMO`'s register transfers and counting (43_demo_table.md R158 to R162). -/

namespace Sys2Proof.Machine

/-- R158. -/
def execTax (s : State) : Outcome := runInstr 1 0 (fun t => .done () (loadX t.a t)) s

/-- R159: no flag is written, and the headroom is 0, so strict mode never checks it. -/
def execTxs (s : State) : Outcome := runInstr 1 0 (fun t => .done () (t.setSp t.x)) s

/-- R160. -/
def execTsx (s : State) : Outcome := runInstr 1 0 (fun t => .done () (loadX t.sp t)) s

/-- R161. -/
def execInx (s : State) : Outcome := runInstr 1 0 (fun t => .done () (loadX (t.x + 1) t)) s

/-- R162. -/
def execDex (s : State) : Outcome := runInstr 1 0 (fun t => .done () (loadX (t.x - 1) t)) s

end Sys2Proof.Machine
end

