-- ==== Sys2Proof/Machine/Dispatch.lean ====
section
/-! DEFINITION. The dispatch: one arm per constructor of Instr, each a call of the instruction's meaning. -/

namespace Sys2Proof.Machine

def exec (i : Instr) (s : State) : Host.Outcome State Fault Refusal :=
  match i with
  | .f1 op => Sys2Proof.Machine.execF1 op s
  | .f2 op b => Sys2Proof.Machine.execF2 op b s
  | .f3 op w => Sys2Proof.Machine.execF3 op w s
  | .illegal op => Sys2Proof.Machine.execIllegal op s
  | .nop => Sys2Proof.Machine.execNop s
  | .ldaImm b => Sys2Proof.Machine.execLdaImm b s
  | .ldxImm b => Sys2Proof.Machine.execLdxImm b s
  | .ldyImm b => Sys2Proof.Machine.execLdyImm b s
  | .ldaZp b => Sys2Proof.Machine.execLdaZp b s
  | .ldaAbs w => Sys2Proof.Machine.execLdaAbs w s
  | .staZp b => Sys2Proof.Machine.execStaZp b s
  | .staAbs w => Sys2Proof.Machine.execStaAbs w s
  | .tax => Sys2Proof.Machine.execTax s
  | .txs => Sys2Proof.Machine.execTxs s
  | .tsx => Sys2Proof.Machine.execTsx s
  | .inx => Sys2Proof.Machine.execInx s
  | .dex => Sys2Proof.Machine.execDex s
  | .clc => Sys2Proof.Machine.execClc s
  | .sec => Sys2Proof.Machine.execSec s
  | .cli => Sys2Proof.Machine.execCli s
  | .sei => Sys2Proof.Machine.execSei s
  | .pha => Sys2Proof.Machine.execPha s
  | .pla => Sys2Proof.Machine.execPla s
  | .php => Sys2Proof.Machine.execPhp s
  | .plp => Sys2Proof.Machine.execPlp s
  | .jmpAbs w => Sys2Proof.Machine.execJmpAbs w s
  | .jsrAbs w => Sys2Proof.Machine.execJsrAbs w s
  | .rts => Sys2Proof.Machine.execRts s
  | .rti => Sys2Proof.Machine.execRti s
  | .bneRel b => Sys2Proof.Machine.execBneRel b s
  | .beqRel b => Sys2Proof.Machine.execBeqRel b s

end Sys2Proof.Machine
end

