-- ==== Sys2Proof/Machine/Step.lean ====
section
/-! DEFINITION. One step of the CORE (R100), and placing an instruction where the next step fetches it. -/

namespace Sys2Proof.Machine

/-- `step` (R100): a well-formed table is required (R81, R243 item 3); then fetch, and run the instruction read. -/
def step (s : State) : Host.Outcome State Fault Refusal :=
  if s.optab.wf then
    match fetch s with
    | .instr i t => exec i t
    | .stop f => .fault f
    | .rejected e => .refused (.undecodable e)
  else .refused .illFormedOptab

/-- `s` with a one-byte ROM region in front, as `add_rom_data(a, 1, [v])` registers it (R41, R47). -/
def State.withRomByte (s : State) (a : Word) (v : Byte) : State :=
  s.setRegions ({ start := a, length := 1, backing := .rom (Memory.ofBytes 0 [v]) } :: s.regions)

/-- `s` with bytes placed from an address on, the address wrapping (R14), each as a ROM byte in front of what was there. -/
def State.withRomBytes (s : State) : Word → List Byte → State
  | _, [] => s
  | a, v :: vs => (s.withRomByte a v).withRomBytes (a + 1) vs

/-- The instruction spec/opcode_table.json numbers as `w`, placed where `step` fetches next. The spec gives the host no way
to write RAM and places its own programs by `add_rom_data` in front of it (91_not_in_source.md N25), and so does this (log
23). -/
def State.withFetchWord (s : State) (nbits w : Nat) : State := s.withRomBytes s.pc (instrBytes nbits w)

end Sys2Proof.Machine
end

