-- ==== Sys2Proof/Machine/Contract.lean ====
section
/-! DEFINITION. The handler contract in its own terms (R141, R143): a handler decides, from the registers and flags, its
operand and the answers of the reads it has made, which bus access to make next or how to leave the registers. The handler
programs of `OPTAB` (log 1) are measured against it. -/

namespace Sys2Proof.Machine

/-- What a handler may read and write besides the bus (R141): A, X, Y, SP, PC and the flags. -/
structure Regs where
  a : Byte
  x : Byte
  y : Byte
  sp : Byte
  pc : Word
  flags : Flags
  deriving DecidableEq, Repr

def State.regs (s : State) : Regs :=
  { a := s.a, x := s.x, y := s.y, sp := s.sp, pc := s.pc, flags := s.flags }

def State.withRegs (r : Regs) (s : State) : State :=
  { s with a := r.a, x := r.x, y := r.y, sp := r.sp, pc := r.pc, flags := r.flags }

/-- The accesses a handler makes, in order: what it does next may depend on every answer so far, it makes finitely many
(R143, it is total), and it ends by leaving the registers. The pushes and pulls of R141 are bus accesses with a new SP. -/
inductive Behaviour where
  | leave (r : Regs)
  | read (addr : Word) (next : Byte → Behaviour)
  | write (addr : Word) (v : Byte) (next : Behaviour)

/-- Carry out a behaviour on the bus. -/
def Behaviour.run : Behaviour → State → Bus Unit
  | .leave r, s => .done () (s.withRegs r)
  | .read addr next, s => (busRead addr s).bind fun v s1 => (next v).run s1
  | .write addr v next, s => (busWrite addr v s).bind fun _ s1 => next.run s1

/-- A handler as the contract has it (R143): a function of the registers and flags and of the operand. -/
abbrev ContractHandler := Regs → Word → Behaviour

/-- A handler's program run from fresh locals, its locals forgotten. -/
def progEffect (p : Prog) (operand : Word) (s : State) : Bus Unit :=
  (runProg operand p Locals.init s).bind fun _ s1 => .done () s1

/-- A program and a contract handler do the same whatever the state and the operand. -/
def implements (p : Prog) (f : ContractHandler) : Prop :=
  ∀ (operand : Word) (s : State), progEffect p operand s = (f s.regs operand).run s

end Sys2Proof.Machine
end

