-- ==== Sys2Proof/Machine/FastPath.lean ====
section
/-! DEFINITION. The source's direct path to the zero page and the stack page (R22, R54), which is not architectural and
which no operation uses, and the platform condition under which it would agree with the bus (R252; log 11). -/

namespace Sys2Proof.Machine

/-- The region touches an address of 0x0000 to 0x01FF. -/
def Region.touchesLowPages (r : Region) : Bool := decide (r.length ≠ 0) && decide (r.start.toNat < Config.fastPathMin)

/-- R252's condition for the region at position `k` of the list: a RAM region that starts at address 0 and spans at least
512 bytes, with no region in front of it that overlaps 0x0000 to 0x01FF. -/
def directPathAgrees (s : State) (k : Nat) (r : Region) : Prop :=
  s.regions[k]? = some r ∧ r.isRam = true ∧ r.start = 0 ∧ Config.fastPathMin ≤ r.length ∧
    ∀ j q, j < k → s.regions[j]? = some q → q.touchesLowPages = false

/-- A direct read: the cached buffer, by offset. -/
def directRead (r : Region) (a : Word) : Byte := r.memory.get a.toNat

/-- A direct write: the cached buffer of the region at position `k`, by offset. -/
def directWrite (k : Nat) (r : Region) (a : Word) (v : Byte) (s : State) : State :=
  s.setRegions (s.regions.set k { r with backing := .ram (r.memory.set a.toNat v) })

end Sys2Proof.Machine
end

