-- ==== Sys2Proof/Machine/TableStep.lean ====
section
/-! DEFINITION. R100's sequence as the spec writes it, driven by the table alone: no decoded instruction and no `DEMO`
meaning stands in it. It is not the machine's step; a statement compares the two. -/

namespace Sys2Proof.Machine

/-- Line 5 of R100: read the operand a handler's kind takes (R105, R106, R107), low byte first (R85). -/
def readOperand (h : Handler) (pc0 : Word) (s : State) : Bus Word :=
  match h with
  | .h0 _ => .done 0 s
  | .h1 _ => (busRead (pc0 + 1) s).bind fun b s1 => .done (zext16 b) s1
  | .h2 _ =>
    (busRead (pc0 + 1) s).bind fun l s1 =>
    (busRead (pc0 + 2) s1).bind fun h s2 =>
    .done (joinBytes h l) s2

/-- R100, lines 1 to 6. -/
def tableStep (s : State) : Outcome :=
  match busRead s.pc s with
  | .miss a => .fault (.busMiss a)
  | .done op s1 =>
    let d := s.optab.entry op
    match d.handler with
    | none => raise .unimplementedInstruction s1
    | some h =>
      if s.strict = true ∧ 0 < d.headroom ∧ (s.sp.toNat : Int) < d.headroom then raise .stackOverflow s1
      else if s.strict = true ∧ d.headroom < 0 ∧ (255 - s.sp.toNat : Int) < -d.headroom then raise .stackUnderflow s1
      else
        ((readOperand h s.pc (s1.setPc (s.pc + BitVec.ofNat 16 d.length))).bind fun w s2 => invoke h w s2).toOutcome

end Sys2Proof.Machine
end

