-- ==== Sys2Proof/Machine/HostOps.lean ====
section
/-! DEFINITION. The operations the host requests between steps (00_scope.md R3): initialisation, registration, the two
controls, `reset`, `irq`, `nmi`, `step`, and the run loop (R110, R112). -/

namespace Sys2Proof.Machine

/-- An operation of R3 that ends by itself (R258); `run` and `boot` stand below. -/
inductive HostOp where
  | init
  | addRam (start : Word) (length : Nat)
  | addRomData (start : Word) (length : Nat) (bytes : List Byte)
  /-- the file's bytes, or the failure to load it, are an input of the host (R48; log 19) -/
  | addRomFile (start : Word) (image : Option (List Byte))
  | addIo (start : Word) (length : Nat) (handle readFn writeFn : Nat)
  | setStrict (b : Bool)
  | setTrace (b : Bool)
  | reset
  | irq
  | nmi
  | step
  deriving DecidableEq, Repr

/-- `Register(r)` (R41): prepend. -/
def register (r : Region) (s : State) : State := s.setRegions (r :: s.regions)

/-- `init` (R240): the whole state zero and the region list empty. `OPTAB` is a parameter and the I/O history is the
model's own: both stay (log 18). -/
def initCore (s : State) : State where
  a := 0
  x := 0
  y := 0
  sp := 0
  pc := 0
  flags := Flags.clear
  strict := false
  trace := false
  regions := []
  optab := s.optab
  events := s.events

/-- `add_ram` (R46): a zeroed buffer. -/
def addRam (start : Word) (length : Nat) (s : State) : State := register { start, length, backing := .ram [] } s

/-- `add_rom_data` (R47): the first `length` bytes given. -/
def addRomData (start : Word) (length : Nat) (bytes : List Byte) (s : State) : State :=
  register { start, length, backing := .rom (Memory.ofBytes 0 (bytes.take length)) } s

/-- `ROM_FILE_MAX(start)`: the largest ROM file image accepted (R48). -/
def romFileMax (start : Word) : Nat := Config.addressSpace - start.toNat

/-- `add_rom_file` (R48): a file that loads within the size budget gives a ROM region; any other, nothing and no error. -/
def addRomFile (start : Word) (image : Option (List Byte)) (s : State) : State :=
  match image with
  | none => s
  | some bytes => if bytes.length ≤ romFileMax start then addRomData start bytes.length bytes s else s

/-- `add_io` (R49). -/
def addIo (start : Word) (length handle readFn writeFn : Nat) (s : State) : State :=
  register { start, length, backing := .io handle readFn writeFn } s

/-- `irq` (R207): not gated by F.I (R209). -/
def irq (s : State) : Outcome := interrupt Config.vecIrq s

/-- `nmi` (R208). -/
def nmi (s : State) : Outcome := interrupt Config.vecNmi s

/-- One operation of the host (R3), performed between steps (R211; log 14). -/
def perform : HostOp → State → Outcome
  | .init, s => .next (initCore s)
  | .addRam start length, s => .next (addRam start length s)
  | .addRomData start length bytes, s =>
    if length ≤ bytes.length then .next (addRomData start length bytes s) else .refused .shortRomData
  | .addRomFile start image, s => .next (addRomFile start image s)
  | .addIo start length handle readFn writeFn, s => .next (addIo start length handle readFn writeFn s)
  | .setStrict b, s => .next (s.setStrict b)
  | .setTrace b, s => .next (s.setTrace b)
  | .reset, s => (resetCore s).toOutcome
  | .irq, s => irq s
  | .nmi, s => nmi s
  | .step, s => step s

/-- Several operations, one after the other, as long as each answers `OK`. -/
def performAll : List HostOp → State → Outcome
  | [], s => .next s
  | op :: ops, s =>
    match perform op s with
    | .next t => performAll ops t
    | .fault f => .fault f
    | .refused r => .refused r

/-- How far a run under fuel came (R110, R111; log 13). -/
inductive RunResult where
  /-- the run ended: the error, the number of steps that answered `OK`, and the end state -/
  | ended (e : CoreError) (count : Nat) (s : State)
  /-- the run met an unmapped address and has no end state (R111) -/
  | missed (addr : Word)
  /-- the model does not run this table -/
  | refused (r : Refusal)
  /-- the fuel is used up and the run goes on from here; the spec's run has no such bound -/
  | going (count : Nat) (s : State)
  deriving DecidableEq, Repr

/-- `run` (R110) with `n` steps already counted, for at most `fuel` more steps. -/
def runFrom : Nat → Nat → State → RunResult
  | 0, n, s => .going n s
  | fuel + 1, n, s =>
    match step s with
    | .next t => runFrom fuel (n + 1) t
    | .fault (.raised e t) => .ended e n t
    | .fault (.busMiss a) => .missed a
    | .refused r => .refused r

/-- `run` (R110) under fuel: the count starts at 0. -/
def run (fuel : Nat) (s : State) : RunResult := runFrom fuel 0 s

/-- `boot` (R112): `reset`, then `run`. -/
def boot (fuel : Nat) (s : State) : RunResult :=
  match resetCore s with
  | .done _ t => run fuel t
  | .miss a => .missed a

end Sys2Proof.Machine
end

