-- ==== Sys2Proof/Safety.lean ====
section
/-! DEFINITION. What a safe run is, the invariant of the machine, and the words the statements use for what an operation
leaves alone. -/

namespace Sys2Proof.Machine

/-- The invariant: every region's buffer is canonical and inside the region, and the table is well-formed (R81). -/
def State.wf (s : State) : Prop := (∀ r ∈ s.regions, r.wf) ∧ s.optab.wf = true

/-- A region without the bytes a write can change: place, length, kind, and for ROM its bytes (R45) and for I/O the
caller's names. -/
def Region.shape (r : Region) : Region :=
  match r.backing with
  | .ram _ => { r with backing := .ram [] }
  | _ => r

/-- The layout of the address space (R41): the region list without its RAM bytes. -/
def State.layout (s : State) : List Region := s.regions.map Region.shape

/-- The byte at an offset of the region at a position of the list, hidden regions included. -/
def State.regionByte (s : State) (k o : Nat) : Option Byte := (s.regions[k]?).map fun r => r.memory.get o

/-- The bytes plain memory holds from an address on, the address wrapping (R14), where every one is plain. -/
def State.peekBytes : Nat → Word → State → Option (List Byte)
  | 0, _, _ => some []
  | n + 1, a, s =>
    match s.peek a with
    | none => none
    | some b =>
      match State.peekBytes n (a + 1) s with
      | none => none
      | some bs => some (b :: bs)

/-- What no instruction changes (R142, R146): the controls, the table, the layout. -/
structure SameControls (s t : State) : Prop where
  strict : t.strict = s.strict
  trace : t.trace = s.trace
  optab : t.optab = s.optab
  layout : t.layout = s.layout

/-- The states agree except, perhaps, in the I/O history (R50: no device changes the CORE's own state). -/
def sameCore (s t : State) : Prop := t.setEvents s.events = s

/-- An outcome the spec gives a meaning: `OK` or one of the three errors (R109, R200), not a miss (R51), not a refusal. -/
def meaningful : Outcome → Prop
  | .next _ => True
  | .fault (.raised _ _) => True
  | .fault (.busMiss _) => False
  | .refused _ => False

/-- A run of at most `n` steps from `s` in which every step has a meaning. -/
def safeFor : Nat → State → Prop
  | 0, _ => True
  | n + 1, s =>
    meaningful (step s) ∧
      match step s with
      | .next t => safeFor n t
      | _ => True

/-- The `DEMO` instructions, as constructors (R149). -/
def isDemoRow : Instr → Bool
  | .f1 _ | .f2 _ _ | .f3 _ _ | .illegal _ => false
  | .nop | .ldaImm _ | .ldxImm _ | .ldyImm _ | .ldaZp _ | .ldaAbs _ | .staZp _ | .staAbs _ | .tax | .txs | .tsx | .inx
  | .dex | .clc | .sec | .cli | .sei | .pha | .pla | .php | .plp | .jmpAbs _ | .jsrAbs _ | .rts | .rti | .bneRel _
  | .beqRel _ => true

/-- The addresses a `DEMO` instruction stores to (R156, R157, R167, R169, R172), from the state it runs in. -/
def storedAddrs (i : Instr) (s : State) : List Word :=
  match i with
  | .staZp b => [zeroPageAddr b]
  | .staAbs w => [w]
  | .pha => [stackAddr s.sp]
  | .php => [stackAddr s.sp]
  | .jsrAbs _ => [stackAddr s.sp, stackAddr (s.sp - 1)]
  | .f1 _ | .f2 _ _ | .f3 _ _ | .illegal _ | .nop | .ldaImm _ | .ldxImm _ | .ldyImm _ | .ldaZp _ | .ldaAbs _ | .tax | .txs
  | .tsx | .inx | .dex | .clc | .sec | .cli | .sei | .pla | .plp | .jmpAbs _ | .rts | .rti | .bneRel _ | .beqRel _ => []

/-- The addresses whose bytes a `DEMO` instruction's own effect reads (R154, R155, R168, R170, R173, R174). -/
def loadedAddrs (i : Instr) (s : State) : List Word :=
  match i with
  | .ldaZp b => [zeroPageAddr b]
  | .ldaAbs w => [w]
  | .pla => [stackAddr (s.sp + 1)]
  | .plp => [stackAddr (s.sp + 1)]
  | .rts => [stackAddr (s.sp + 1), stackAddr (s.sp + 2)]
  | .rti => [stackAddr (s.sp + 1), stackAddr (s.sp + 2), stackAddr (s.sp + 3)]
  | .f1 _ | .f2 _ _ | .f3 _ _ | .illegal _ | .nop | .ldaImm _ | .ldxImm _ | .ldyImm _ | .staZp _ | .staAbs _ | .tax | .txs
  | .tsx | .inx | .dex | .clc | .sec | .cli | .sei | .pha | .php | .jmpAbs _ | .jsrAbs _ | .bneRel _ | .beqRel _ => []

/-- The strict check lets the headroom through (R103). -/
def roomFor (headroom : Int) (s : State) : Prop :=
  s.strict = true → (0 < headroom → headroom ≤ s.sp.toNat) ∧ (headroom < 0 → -headroom ≤ 255 - s.sp.toNat)

/-- The headroom `DEMO` declares for an instruction (R149's column). -/
def demoHeadroom : Instr → Int
  | .pha => 1
  | .pla => -1
  | .php => 1
  | .plp => -1
  | .jsrAbs _ => 2
  | .rts => -2
  | .rti => -3
  | .f1 _ | .f2 _ _ | .f3 _ _ | .illegal _ | .nop | .ldaImm _ | .ldxImm _ | .ldyImm _ | .ldaZp _ | .ldaAbs _ | .staZp _
  | .staAbs _ | .tax | .txs | .tsx | .inx | .dex | .clc | .sec | .cli | .sei | .jmpAbs _ | .bneRel _ | .beqRel _ => 0

end Sys2Proof.Machine
end

