-- ==== Sys2Proof/Certificates/Slice0/Obligations.lean ====
section
/-! DEFINITION. The statements. Each docstring names the rules of spec/ it formalises. Where a clause rests on a decision of
the spec (D<n>) or of the model, the log entry is named. Statements about the rows of `DEMO` rest on the spec's own
demonstration table (D1; log 2), which is not the repository's. -/

open Sys2Proof Sys2Proof.Machine

/-! ## The status byte -/

/-- R16: the packed byte, as a number and bit by bit. -/
def Obligations.PackPutsEachFlagInItsBit : Prop :=
  ∀ f : Flags,
    (pack f).toNat = 128 * f.n.toNat + 64 * f.v.toNat + 32 + 16 * f.b.toNat + 8 * f.d.toNat + 4 * f.i.toNat
      + 2 * f.z.toNat + f.c.toNat ∧
    (pack f).getLsbD 7 = f.n ∧ (pack f).getLsbD 6 = f.v ∧ (pack f).getLsbD 5 = true ∧ (pack f).getLsbD 4 = f.b ∧
    (pack f).getLsbD 3 = f.d ∧ (pack f).getLsbD 2 = f.i ∧ (pack f).getLsbD 1 = f.z ∧ (pack f).getLsbD 0 = f.c

/-- R17: unpacking takes every flag from its bit and never looks at bit 5. -/
def Obligations.UnpackReadsEachFlagFromItsBit : Prop :=
  (∀ b : Byte, unpack b =
    { n := b.getLsbD 7, v := b.getLsbD 6, b := b.getLsbD 4, d := b.getLsbD 3, i := b.getLsbD 2, z := b.getLsbD 1,
      c := b.getLsbD 0 }) ∧
  ∀ b : Byte, unpack (b ^^^ 0x20) = unpack b

/-- R18 and its derivation: unpacking undoes packing; packing undoes unpacking but for bit 5, which comes out as 1, so the
byte differs exactly when its bit 5 was 0. -/
def Obligations.PackAndUnpackAreInverseButForBitFive : Prop :=
  (∀ f : Flags, unpack (pack f) = f) ∧ (∀ f : Flags, (pack f).getLsbD 5 = true) ∧
  ∀ b : Byte, pack (unpack b) = b ||| 0x20 ∧ (pack (unpack b) ≠ b ↔ b.getLsbD 5 = false)

/-! ## The bus -/

/-- R42: a read goes to the first region that covers the address and to no other. RAM and ROM answer their byte and change
nothing, an I/O region answers a free value and the access is recorded (R50; log 4), no region is the model fault. -/
def Obligations.BusReadAsksOnlyTheFirstCoveringRegion : Prop :=
  (∀ (a : Word) (s : State) (front back : List Region) (r : Region),
    s.regions = front ++ r :: back → (∀ q ∈ front, q.covers a = false) → r.covers a = true →
      (r.isPlain = true → busRead a s = .done (r.memory.get (a.toNat - r.start.toNat)) s) ∧
      (∀ handle readFn writeFn, r.backing = .io handle readFn writeFn →
        busRead a s =
          .done (Config.ioAnswer readFn handle a s.events)
            (s.setEvents (.read readFn handle a (Config.ioAnswer readFn handle a s.events) :: s.events)))) ∧
  ∀ (a : Word) (s : State), (∀ q ∈ s.regions, q.covers a = false) → busRead a s = .miss a

/-- R43, R44, R45, R51: a write goes to the first covering region and to no other: RAM stores the byte at its offset, with
the regions in front and behind as they were; ROM ignores it (D6; log 7); an I/O region is told and it is recorded (log
5); no region is the model fault (log 6). -/
def Obligations.BusWriteReachesOnlyTheFirstCoveringRegion : Prop :=
  (∀ (a : Word) (v : Byte) (s : State) (front back : List Region) (r : Region),
    s.regions = front ++ r :: back → (∀ q ∈ front, q.covers a = false) → r.covers a = true →
      (∀ m, r.backing = .ram m →
        busWrite a v s =
          .done () (s.setRegions (front ++ { r with backing := .ram (m.set (a.toNat - r.start.toNat) v) } :: back))) ∧
      (∀ m, r.backing = .rom m → busWrite a v s = .done () s) ∧
      (∀ handle readFn writeFn, r.backing = .io handle readFn writeFn →
        busWrite a v s = .done () (s.setEvents (.write writeFn handle a v :: s.events)))) ∧
  ∀ (a : Word) (v : Byte) (s : State), (∀ q ∈ s.regions, q.covers a = false) → busWrite a v s = .miss a

/-- R44, R59: after a write to RAM the byte reads back, every other address reads as before, and in the whole region list,
hidden regions included, at most the one byte written is another. -/
def Obligations.RamWriteChangesOneByte : Prop :=
  ∀ (a : Word) (v : Byte) (s : State), s.isRamAt a →
    ∃ t, busWrite a v s = .done () t ∧ busRead a t = .done v t ∧
      (∀ b, b ≠ a → t.peek b = s.peek b) ∧
      (∃ k r, s.regions[k]? = some r ∧ resolve s.regions a = some r ∧
        ∀ j o, (j ≠ k ∨ o ≠ a.toNat - r.start.toNat) → t.regionByte j o = s.regionByte j o) ∧
      t.setRegions s.regions = s ∧ t.layout = s.layout

/-- R41, R46, the source's region priority: a RAM region registered over others takes the accesses it covers, reads 0x00
there, and keeps what is behind it unwritten, while the addresses it does not cover are served as before. -/
def Obligations.NewRamRegionShadowsWhatItCovers : Prop :=
  ∀ (start : Word) (length : Nat) (s : State) (a : Word) (v : Byte),
    ∃ t, perform (.addRam start length) s = .next t ∧ t.regions.tail = s.regions ∧
      (start.toNat ≤ a.toNat → a.toNat < start.toNat + length →
        busRead a t = .done 0 t ∧
        ∃ u, busWrite a v t = .done () u ∧ busRead a u = .done v u ∧ u.regions.tail = s.regions) ∧
      (¬(start.toNat ≤ a.toNat ∧ a.toNat < start.toNat + length) →
        t.peek a = s.peek a ∧ ∀ u, busWrite a v t = .done () u → u.regions.head? = t.regions.head?)

/-- R47, R48 (D21; log 19): a registered ROM region answers the bytes given; a file whose size is within 65536 - start is
registered with its own size, and any other file registers nothing. -/
def Obligations.RomRegionAnswersItsBytes : Prop :=
  (∀ (start : Word) (length : Nat) (bytes : List Byte) (s : State), length ≤ bytes.length →
    ∃ t, perform (.addRomData start length bytes) s = .next t ∧ t.regions.tail = s.regions ∧
      ∀ (a : Word) (i : Nat) (v : Byte), a.toNat = start.toNat + i → i < length → bytes[i]? = some v →
        t.peek a = some v ∧ ∀ w, busWrite a w t = .done () t) ∧
  (∀ (start : Word) (bytes : List Byte) (s : State), bytes.length ≤ 65536 - start.toNat →
    perform (.addRomFile start (some bytes)) s = perform (.addRomData start bytes.length bytes) s) ∧
  (∀ (start : Word) (bytes : List Byte) (s : State), 65536 - start.toNat < bytes.length →
    perform (.addRomFile start (some bytes)) s = .next s) ∧
  ∀ (start : Word) (s : State), perform (.addRomFile start none) s = .next s

/-- R49, R50 (D7; logs 4 and 5): a registered I/O region takes the accesses it covers; its functions get the caller's
handle and the absolute address, the answer of a read is a free value, and both are recorded. -/
def Obligations.IoRegionGetsHandleAndAbsoluteAddress : Prop :=
  ∀ (start : Word) (length handle readFn writeFn : Nat) (s : State) (a : Word) (v : Byte),
    ∃ t, perform (.addIo start length handle readFn writeFn) s = .next t ∧ t.regions.tail = s.regions ∧
      (start.toNat ≤ a.toNat → a.toNat < start.toNat + length →
        busRead a t = .done (Config.ioAnswer readFn handle a s.events)
          (t.setEvents (.read readFn handle a (Config.ioAnswer readFn handle a s.events) :: s.events)) ∧
        busWrite a v t = .done () (t.setEvents (.write writeFn handle a v :: s.events))) ∧
      (¬(start.toNat ≤ a.toNat ∧ a.toNat < start.toNat + length) → t.peek a = s.peek a)

/-- R53: in every state a vector is read by two bus reads, the byte at the address first and then the byte after it (the
order in time is D4; log 8), the first byte read being the low one; in plain memory the reads change nothing. -/
def Obligations.VectorIsLittleEndian : Prop :=
  (∀ (a : Word) (s : State), readVector a s =
    (busRead a s).bind fun l s1 => (busRead (a + 1) s1).bind fun h s2 => .done (joinBytes h l) s2) ∧
  ∀ (a : Word) (s : State) (l h : Byte), s.peek a = some l → s.peek (a + 1) = some h →
    ∃ w, readVector a s = .done w s ∧ w.toNat = h.toNat * 256 + l.toNat

/-- R61, R257: a byte stored by an instruction is what a later fetch of that address reads. -/
def Obligations.StoreIsSeenByFetch : Prop :=
  ∀ (w : Word) (s t : State), s.isRamAt w → exec (.staAbs w) s = .next t →
    ∀ u : State, u.regions = t.regions → u.pc = w → busRead u.pc u = .done s.a u

/-- R252: on a platform that meets the condition, the source's direct path and the bus agree on every address of the zero
page and the stack page. -/
def Obligations.DirectPathEqualsTheBusOnTheLowPages : Prop :=
  ∀ (s : State) (k : Nat) (r : Region), directPathAgrees s k r →
    ∀ a : Word, a.toNat < 512 →
      busRead a s = .done (directRead r a) s ∧ ∀ v, busWrite a v s = .done () (directWrite k r a v s)

/-! ## The stack unit -/

/-- R12, R130: a push writes the next free slot of the stack page and then decrements SP modulo 256, whatever kind of
region the slot is in. -/
def Obligations.PushByteWritesTheFreeSlot : Prop :=
  (∀ sp : Byte, (stackAddr sp).toNat = 0x100 + sp.toNat) ∧
  ∀ (v : Byte) (s : State),
    (s.isRamAt (stackAddr s.sp) →
      ∃ t, pushByte v s = .done () t ∧ t.peek (stackAddr s.sp) = some v ∧
        (∀ a, a ≠ stackAddr s.sp → t.peek a = s.peek a) ∧ t.layout = s.layout ∧
        (t.setSp s.sp).setRegions s.regions = s ∧ t.sp.toNat = (s.sp.toNat + 255) % 256) ∧
    (∀ r m, resolve s.regions (stackAddr s.sp) = some r → r.backing = .rom m →
      pushByte v s = .done () (s.setSp (s.sp - 1))) ∧
    (∀ r handle readFn writeFn, resolve s.regions (stackAddr s.sp) = some r →
      r.backing = .io handle readFn writeFn →
      pushByte v s = .done () ((s.setEvents (.write writeFn handle (stackAddr s.sp) v :: s.events)).setSp (s.sp - 1))) ∧
    (¬s.mapped (stackAddr s.sp) → pushByte v s = .miss (stackAddr s.sp))

/-- R131, R133: a pull increments SP modulo 256 and then reads there; a word is pulled low byte first. Nothing is
written. -/
def Obligations.PullReadsAboveTheFreeSlot : Prop :=
  (∀ s : State, pullByte s = busRead (stackAddr (s.sp + 1)) (s.setSp (s.sp + 1))) ∧
  (∀ (s : State) (v : Byte), s.peek (stackAddr (s.sp + 1)) = some v → pullByte s = .done v (s.setSp (s.sp + 1))) ∧
  (∀ s : State, pullWord s =
    (pullByte s).bind fun l s1 => (pullByte s1).bind fun h s2 => .done (joinBytes h l) s2) ∧
  (∀ h l : Byte, (joinBytes h l).toNat = h.toNat * 256 + l.toNat) ∧
  ∀ (s : State) (l h : Byte), s.peek (stackAddr (s.sp + 1)) = some l → s.peek (stackAddr (s.sp + 2)) = some h →
    pullWord s = .done (joinBytes h l) (s.setSp (s.sp + 2))

/-- R132: a word is pushed high byte first, so that the low byte lies in the slot below. -/
def Obligations.PushWordStoresHighThenLow : Prop :=
  (∀ (w : Word) (s : State), pushWord w s = (pushByte (hiByte w) s).bind fun _ t => pushByte (loByte w) t) ∧
  (∀ w : Word, (hiByte w).toNat = w.toNat / 256 ∧ (loByte w).toNat = w.toNat % 256) ∧
  ∀ (w : Word) (s : State), s.isRamAt (stackAddr s.sp) → s.isRamAt (stackAddr (s.sp - 1)) →
    ∃ t, pushWord w s = .done () t ∧ t.peek (stackAddr s.sp) = some (hiByte w) ∧
      t.peek (stackAddr (s.sp - 1)) = some (loByte w) ∧
      (∀ a, a ≠ stackAddr s.sp → a ≠ stackAddr (s.sp - 1) → t.peek a = s.peek a) ∧ t.layout = s.layout ∧
      (t.setSp s.sp).setRegions s.regions = s ∧ t.sp = s.sp - 2

/-- R136: with RAM behind the slots, a pull undoes a push, for bytes and for words, at every SP. -/
def Obligations.PullUndoesPush : Prop :=
  (∀ (v : Byte) (s : State), s.isRamAt (stackAddr s.sp) →
    ∃ t u, pushByte v s = .done () t ∧ pullByte t = .done v u ∧ u.sp = s.sp ∧
      u.setRegions s.regions = s ∧ ∀ a, a ≠ stackAddr s.sp → u.peek a = s.peek a) ∧
  ∀ (w : Word) (s : State), s.isRamAt (stackAddr s.sp) → s.isRamAt (stackAddr (s.sp - 1)) →
    ∃ t u, pushWord w s = .done () t ∧ pullWord t = .done w u ∧ u.sp = s.sp ∧ u.setRegions s.regions = s ∧
      ∀ a, a ≠ stackAddr s.sp → a ≠ stackAddr (s.sp - 1) → u.peek a = s.peek a

/-- R103, R134, R135: the strict check raises exactly the errors of R103's table. -/
def Obligations.StrictCheckFollowsItsTable : Prop :=
  ∀ (h : Int) (s : State),
    (stackCheck h s = some .stackOverflow ↔ s.strict = true ∧ 0 < h ∧ (s.sp.toNat : Int) < h) ∧
    (stackCheck h s = some .stackUnderflow ↔ s.strict = true ∧ h < 0 ∧ (255 - s.sp.toNat : Int) < -h) ∧
    stackCheck h s ≠ some .unimplementedInstruction ∧
    (stackCheck h s = none ↔ roomFor h s) ∧ s.stackFree + s.stackUsed = 255

/-! ## The dispatcher -/

/-- When plain memory at PC holds an instruction's bytes, a step is that instruction's `exec` on the same state (R83, R100).
PC is moved inside `exec`. -/
def Obligations.StepRunsTheDecodedInstruction : Prop :=
  ∀ (s : State) (i : Instr) (bytes : List Byte), s.optab.wf = true → s.peekBytes i.length s.pc = some bytes →
    decode s.optab bytes = .ok (i, []) → step s = exec i s

/-- R100: for every state with a well-formed table, whatever regions its code and data lie in, a step is the spec's own
sequence driven by the table. So decoding, the meanings of the `DEMO` rows and the handlers of the table agree. -/
def Obligations.StepIsTheTableDrivenSequence : Prop :=
  ∀ s : State, s.optab.wf = true → step s = tableStep s

/-- R201 (and R102): a step raises `UnimplementedInstruction` exactly when the fetched opcode byte has no handler, in
either mode, and the CORE's state is unchanged; the illegal class raises it on every path. -/
def Obligations.UnimplementedInstructionCondition : Prop :=
  (∀ (op : Byte) (s : State), exec (.illegal op) s = .fault (.raised .unimplementedInstruction s)) ∧
  ∀ (s t : State), s.optab.wf = true →
    (step s = .fault (.raised .unimplementedInstruction t) ↔
      ∃ op, busRead s.pc s = .done op t ∧ sameCore s t ∧ (s.optab.entry op).handler = none)

/-- R202: `StackOverflow` is raised with strict 1 only, in two places, and the CORE's state is unchanged: by `step` when the
opcode has a handler whose headroom is positive and above SP, and by `irq` and `nmi` when SP is below 3. No other operation
raises it, and the stack unit never does. -/
def Obligations.StackOverflowCondition : Prop :=
  (∀ (s t : State), s.optab.wf = true →
    (step s = .fault (.raised .stackOverflow t) ↔
      ∃ op, busRead s.pc s = .done op t ∧ sameCore s t ∧ (s.optab.entry op).handler ≠ none ∧ s.strict = true ∧
        0 < (s.optab.entry op).headroom ∧ (s.sp.toNat : Int) < (s.optab.entry op).headroom)) ∧
  (∀ (op : HostOp) (s t : State), op = .irq ∨ op = .nmi →
    (perform op s = .fault (.raised .stackOverflow t) ↔ t = s ∧ s.strict = true ∧ s.sp.toNat < 3)) ∧
  (∀ (op : HostOp) (s t : State), perform op s = .fault (.raised .stackOverflow t) → op = .step ∨ op = .irq ∨ op = .nmi) ∧
  ∀ (v : Byte) (w : Word) (s t : State),
    (pushByte v s).toOutcome ≠ .fault (.raised .stackOverflow t) ∧
    (pushWord w s).toOutcome ≠ .fault (.raised .stackOverflow t) ∧
    (pullByte s).toOutcome ≠ .fault (.raised .stackOverflow t) ∧
    (pullWord s).toOutcome ≠ .fault (.raised .stackOverflow t)

/-- R203: `StackUnderflow` comes from `step` alone, and exactly when strict is 1, the headroom is negative and more than
the used bytes; `irq` and `nmi` never raise it. -/
def Obligations.StackUnderflowCondition : Prop :=
  (∀ (s t : State), s.optab.wf = true →
    (step s = .fault (.raised .stackUnderflow t) ↔
      ∃ op, busRead s.pc s = .done op t ∧ (s.optab.entry op).handler ≠ none ∧ s.strict = true ∧
        (s.optab.entry op).headroom < 0 ∧ (255 - s.sp.toNat : Int) < -(s.optab.entry op).headroom)) ∧
  ∀ (op : HostOp) (s t : State), perform op s = .fault (.raised .stackUnderflow t) → op = .step

/-- R109, R200: a step that ends in an error has changed nothing of the CORE: at most the opcode fetch is in the I/O
history, and with the opcode in plain memory the state is the same state. -/
def Obligations.StepErrorChangesNothing : Prop :=
  ∀ (s t : State) (e : CoreError), step s = .fault (.raised e t) →
    sameCore s t ∧ (t = s ∨ ∃ fn handle v, t.events = .read fn handle s.pc v :: s.events) ∧
      ∀ v, s.peek s.pc = some v → t = s

/-- R81, D23 (log 20): a step is refused exactly when the table is ill-formed; a well-formed table never meets bytes the
decoder rejects, nor a format that does not match. -/
def Obligations.StepRefusesOnlyIllFormedTables : Prop :=
  ∀ (s : State), (∃ r, step s = .refused r) ↔ s.optab.wf = false

/-- R105, R106, R107: an instruction of a generic format whose entry is of that format and whose declared headroom is there
completes on every fully mapped platform, with the handler's own effect after PC has moved past the instruction. -/
def Obligations.GenericFormatsComplete : Prop :=
  ∀ (s : State) (op : Byte), s.fullyMapped → roomFor (s.optab.entry op).headroom s →
    (∀ p, (s.optab.entry op).handler = some (.h0 p) → (s.optab.entry op).length = 1 →
      ∃ t, invoke (.h0 p) 0 (s.setPc (s.pc + 1)) = .done () t ∧ exec (.f1 op) s = .next t) ∧
    (∀ p b, (s.optab.entry op).handler = some (.h1 p) → (s.optab.entry op).length = 2 →
      ∃ t, invoke (.h1 p) (zext16 b) (s.setPc (s.pc + 2)) = .done () t ∧ exec (.f2 op b) s = .next t) ∧
    ∀ p w, (s.optab.entry op).handler = some (.h2 p) → (s.optab.entry op).length = 3 →
      ∃ t, invoke (.h2 p) w (s.setPc (s.pc + 3)) = .done () t ∧ exec (.f3 op w) s = .next t

/-- R102, R103 and log 25: when a generic row does not complete: no handler, another format, or the strict check. -/
def Obligations.GenericFormatsStop : Prop :=
  ∀ (n : Nat) (op : Byte) (w : Word) (s : State) (i : Instr),
    (n = 1 ∧ i = .f1 op) ∨ (n = 2 ∧ ∃ b, i = .f2 op b) ∨ (n = 3 ∧ i = .f3 op w) →
    ((s.optab.entry op).handler = none → exec i s = .fault (.raised .unimplementedInstruction s)) ∧
    (∀ h, (s.optab.entry op).handler = some h →
      (((s.optab.entry op).length ≠ n ∨ h.length ≠ n) ↔ exec i s = .refused (.formatMismatch op)) ∧
      ((s.optab.entry op).length = n → h.length = n → ∀ e, stackCheck (s.optab.entry op).headroom s = some e →
        exec i s = .fault (.raised e s)))

/-- R142, R146: no handler of any table changes a control, the table or the layout, and a handler only adds to the I/O
history. -/
def Obligations.HandlersKeepControlsAndLayout : Prop :=
  ∀ (h : Handler) (w : Word) (s t : State), invoke h w s = .done () t →
    SameControls s t ∧ ∃ new, t.events = new ++ s.events

/-- R143 (D15; log 15): the handlers the model's tables can hold meet the contract: each is a function of the registers and
flags, the operand and the answers of its reads. -/
def Obligations.EveryHandlerProgramMeetsTheContract : Prop :=
  ∀ p : Prog, ∃ f : ContractHandler, implements p f

/-- R141, R143 (log 1): the model's tables leave no handler of the contract out: each is the effect of some program. -/
def Obligations.EveryContractHandlerHasAProgram : Prop :=
  ∀ f : ContractHandler, ∃ p : Prog, implements p f

/-- R142, R146: a step changes no control, not the table and not the layout, and only adds to the I/O history. -/
def Obligations.StepKeepsControlsAndLayout : Prop :=
  ∀ s t : State, step s = .next t → SameControls s t ∧ ∃ new, t.events = new ++ s.events

/-! ## Encoding -/

/-- R82 to R87: under every table, decoding the bytes of a well-formed instruction gives it back, with every operand. -/
def Obligations.DecodeEncodeRoundTrip : Prop :=
  ∀ (t : OpTab) (i : Instr) (rest : List Byte), i.wf t = true → decode t (encode i ++ rest) = .ok (i, rest)

/-- R82, R83: what the decoder answers has exactly the bytes it read, and under a well-formed table it is well-formed. -/
def Obligations.DecodedInstructionHasItsBytes : Prop :=
  ∀ (t : OpTab) (bytes rest : List Byte) (i : Instr), decode t bytes = .ok (i, rest) →
    bytes = encode i ++ rest ∧ (t.wf = true → i.wf t = true)

/-- Words written out from the encodings of spec/opcode_table.json, numbered as R87 numbers them (log 22). -/
def Obligations.TableWordsDecode : Prop :=
  decodeTableWord 8 0xEA = some .nop ∧ decodeTableWord 16 0xA97F = some (.ldaImm 0x7F) ∧
  decodeTableWord 16 0x8510 = some (.staZp 0x10) ∧ decodeTableWord 24 0x8D0003 = some (.staAbs 0x0300) ∧
  decodeTableWord 8 0xBA = some .tsx ∧ decodeTableWord 8 0x38 = some .sec ∧ decodeTableWord 8 0x28 = some .plp ∧
  decodeTableWord 24 0x201004 = some (.jsrAbs 0x0410) ∧ decodeTableWord 16 0xD0FC = some (.bneRel 0xFC) ∧
  decodeTableWord 8 0x00 = some (.illegal 0x00)

/-- R149: `DEMO` is well-formed and has exactly 27 opcode bytes with a handler. -/
def Obligations.DemoTableHasTwentySevenRows : Prop :=
  Demo.table.wf = true ∧
    ((List.finRange 256).filter fun k => (Demo.table.entry (BitVec.ofFin k)).handler.isSome).length = 27

/-! ## The rows of `DEMO`: results -/

/-- R150, R151, R152, R153: NOP and the immediate loads. -/
def Obligations.NopAndImmediateLoadResults : Prop :=
  ∀ (b : Byte) (s : State),
    exec .nop s = .next { s with pc := s.pc + 1 } ∧
    exec (.ldaImm b) s =
      .next { s with pc := s.pc + 2, a := b, flags := { s.flags with z := decide (b = 0), n := b.getLsbD 7 } } ∧
    exec (.ldxImm b) s =
      .next { s with pc := s.pc + 2, x := b, flags := { s.flags with z := decide (b = 0), n := b.getLsbD 7 } } ∧
    exec (.ldyImm b) s =
      .next { s with pc := s.pc + 2, y := b, flags := { s.flags with z := decide (b = 0), n := b.getLsbD 7 } }

/-- R154, R155: LDA from memory, for an address in plain memory, in an I/O region and in no region. -/
def Obligations.MemoryLoadResults : Prop :=
  ∀ (i : Instr) (addr len : Word) (s : State),
    (∃ b : Byte, i = .ldaZp b ∧ addr = b.setWidth 16 ∧ len = 2) ∨ (i = .ldaAbs addr ∧ len = 3) →
    (∀ v, s.peek addr = some v →
      exec i s =
        .next { s with pc := s.pc + len, a := v, flags := { s.flags with z := decide (v = 0), n := v.getLsbD 7 } }) ∧
    (s.mapped addr → ∃ v t, busRead addr s = .done v t ∧
      exec i s =
        .next { t with pc := s.pc + len, a := v, flags := { s.flags with z := decide (v = 0), n := v.getLsbD 7 } }) ∧
    (¬s.mapped addr → exec i s = .fault (.busMiss addr))

/-- R156, R157: STA to an address in RAM, in ROM, in an I/O region and in no region. -/
def Obligations.StoreResults : Prop :=
  ∀ (i : Instr) (addr len : Word) (s : State),
    (∃ b : Byte, i = .staZp b ∧ addr = b.setWidth 16 ∧ len = 2) ∨ (i = .staAbs addr ∧ len = 3) →
    (s.isRamAt addr → ∃ t, exec i s = .next t ∧ t.peek addr = some s.a ∧ (∀ a, a ≠ addr → t.peek a = s.peek a) ∧
      t.layout = s.layout ∧ t.pc = s.pc + len ∧ (t.setPc s.pc).setRegions s.regions = s) ∧
    (∀ r m, resolve s.regions addr = some r → r.backing = .rom m → exec i s = .next { s with pc := s.pc + len }) ∧
    (∀ r handle readFn writeFn, resolve s.regions addr = some r → r.backing = .io handle readFn writeFn →
      exec i s = .next { s with pc := s.pc + len, events := .write writeFn handle addr s.a :: s.events }) ∧
    (¬s.mapped addr → exec i s = .fault (.busMiss addr))

/-- R158 to R162: transfers and counting; TXS writes no flag, and C and V are never written. -/
def Obligations.TransferResults : Prop :=
  ∀ s : State,
    exec .tax s =
      .next { s with pc := s.pc + 1, x := s.a, flags := { s.flags with z := decide (s.a = 0), n := s.a.getLsbD 7 } } ∧
    exec .txs s = .next { s with pc := s.pc + 1, sp := s.x } ∧
    exec .tsx s =
      .next { s with pc := s.pc + 1, x := s.sp, flags := { s.flags with z := decide (s.sp = 0), n := s.sp.getLsbD 7 } } ∧
    (∃ v : Byte, v.toNat = (s.x.toNat + 1) % 256 ∧
      exec .inx s =
        .next { s with pc := s.pc + 1, x := v, flags := { s.flags with z := decide (v.toNat = 0), n := v.getLsbD 7 } }) ∧
    ∃ v : Byte, v.toNat = (s.x.toNat + 255) % 256 ∧
      exec .dex s =
        .next { s with pc := s.pc + 1, x := v, flags := { s.flags with z := decide (v.toNat = 0), n := v.getLsbD 7 } }

/-- R163 to R166: the flag operations write one flag and nothing else. -/
def Obligations.FlagOperationResults : Prop :=
  ∀ s : State,
    exec .clc s = .next { s with pc := s.pc + 1, flags := { s.flags with c := false } } ∧
    exec .sec s = .next { s with pc := s.pc + 1, flags := { s.flags with c := true } } ∧
    exec .cli s = .next { s with pc := s.pc + 1, flags := { s.flags with i := false } } ∧
    exec .sei s = .next { s with pc := s.pc + 1, flags := { s.flags with i := true } }

/-- R167, R169: PHA pushes A, PHP pushes `Pack(F)`; on RAM the byte is there and nothing else is another. -/
def Obligations.PushInstructionResults : Prop :=
  ∀ (i : Instr) (v : Byte) (s : State), (i = .pha ∧ v = s.a) ∨ (i = .php ∧ v = pack s.flags) →
    (s.strict = true → 1 ≤ s.sp.toNat) →
    (s.mapped (stackAddr s.sp) → ∃ u, busWrite (stackAddr s.sp) v s = .done () u ∧
      exec i s = .next { u with sp := s.sp - 1, pc := s.pc + 1 }) ∧
    (s.isRamAt (stackAddr s.sp) → ∃ t, exec i s = .next t ∧ t.peek (stackAddr s.sp) = some v ∧
      (∀ a, a ≠ stackAddr s.sp → t.peek a = s.peek a) ∧ t.sp = s.sp - 1 ∧ t.pc = s.pc + 1 ∧
      ((t.setPc s.pc).setSp s.sp).setRegions s.regions = s) ∧
    (¬s.mapped (stackAddr s.sp) → exec i s = .fault (.busMiss (stackAddr s.sp)))

/-- R168, R170: PLA and PLP take the byte above SP, wherever it lies; PLP writes all seven flags from it. -/
def Obligations.PullInstructionResults : Prop :=
  ∀ s : State, (s.strict = true → 1 ≤ 255 - s.sp.toNat) →
    (∀ v, s.peek (stackAddr (s.sp + 1)) = some v →
      exec .pla s =
        .next { s with pc := s.pc + 1, sp := s.sp + 1, a := v,
                       flags := { s.flags with z := decide (v = 0), n := v.getLsbD 7 } } ∧
      exec .plp s = .next { s with pc := s.pc + 1, sp := s.sp + 1, flags := unpack v }) ∧
    (s.mapped (stackAddr (s.sp + 1)) → ∃ v u, busRead (stackAddr (s.sp + 1)) s = .done v u ∧
      exec .pla s =
        .next { u with pc := s.pc + 1, sp := s.sp + 1, a := v,
                       flags := { s.flags with z := decide (v = 0), n := v.getLsbD 7 } } ∧
      exec .plp s = .next { u with pc := s.pc + 1, sp := s.sp + 1, flags := unpack v }) ∧
    (¬s.mapped (stackAddr (s.sp + 1)) →
      exec .pla s = .fault (.busMiss (stackAddr (s.sp + 1))) ∧ exec .plp s = .fault (.busMiss (stackAddr (s.sp + 1))))

/-- R171, R175, R176: jump and branches; a branch adds the signed byte to the next instruction's address, modulo 65536, and
a branch not taken only moves on. -/
def Obligations.JumpAndBranchResults : Prop :=
  ∀ (w : Word) (b : Byte) (s : State),
    exec (.jmpAbs w) s = .next { s with pc := w } ∧
    ∃ target : Word, (target.toInt - (s.pc.toInt + 2 + b.toInt)) % 65536 = 0 ∧
      exec (.bneRel b) s = .next { s with pc := if s.flags.z = false then target else s.pc + 2 } ∧
      exec (.beqRel b) s = .next { s with pc := if s.flags.z = true then target else s.pc + 2 }

/-- R172: JSR pushes the address of its last byte, high byte first, and goes to its operand. -/
def Obligations.SubroutineCallResult : Prop :=
  ∀ (w : Word) (s : State), (s.strict = true → 2 ≤ s.sp.toNat) →
    (s.mapped (stackAddr s.sp) → s.mapped (stackAddr (s.sp - 1)) →
      ∃ u, pushWord (s.pc + 2) s = .done () u ∧ exec (.jsrAbs w) s = .next { u with pc := w }) ∧
    (s.isRamAt (stackAddr s.sp) → s.isRamAt (stackAddr (s.sp - 1)) →
      ∃ t, exec (.jsrAbs w) s = .next t ∧ t.peek (stackAddr s.sp) = some (hiByte (s.pc + 2)) ∧
        t.peek (stackAddr (s.sp - 1)) = some (loByte (s.pc + 2)) ∧
        (∀ a, a ≠ stackAddr s.sp → a ≠ stackAddr (s.sp - 1) → t.peek a = s.peek a) ∧ t.pc = w ∧ t.sp = s.sp - 2 ∧
        ((t.setPc s.pc).setSp s.sp).setRegions s.regions = s)

/-- R173, R174: RTS goes to the pulled word plus 1; RTI restores the seven flags and goes to the pulled word as it is. -/
def Obligations.ReturnResults : Prop :=
  ∀ s : State,
    ((s.strict = true → 2 ≤ 255 - s.sp.toNat) →
      (∀ l h, s.peek (stackAddr (s.sp + 1)) = some l → s.peek (stackAddr (s.sp + 2)) = some h →
        exec .rts s = .next { s with sp := s.sp + 2, pc := joinBytes h l + 1 }) ∧
      (s.mapped (stackAddr (s.sp + 1)) → s.mapped (stackAddr (s.sp + 2)) →
        ∃ w u, pullWord s = .done w u ∧ exec .rts s = .next { u with pc := w + 1 })) ∧
    ((s.strict = true → 3 ≤ 255 - s.sp.toNat) →
      (∀ f l h, s.peek (stackAddr (s.sp + 1)) = some f → s.peek (stackAddr (s.sp + 2)) = some l →
        s.peek (stackAddr (s.sp + 3)) = some h →
        exec .rti s = .next { s with sp := s.sp + 3, flags := unpack f, pc := joinBytes h l }) ∧
      (s.mapped (stackAddr (s.sp + 1)) → s.mapped (stackAddr (s.sp + 2)) → s.mapped (stackAddr (s.sp + 3)) →
        ∃ f u w t, pullByte s = .done f u ∧ pullWord u = .done w t ∧
          exec .rti s = .next { t with flags := unpack f, pc := w }))

/-! ## The rows of `DEMO`: completion, traps, frames -/

/-- R150 to R176: every row of `DEMO` completes when its declared headroom is there and the addresses it loads from and
stores to are covered by some region. -/
def Obligations.DemoRowsComplete : Prop :=
  ∀ (i : Instr) (s : State), isDemoRow i = true → roomFor (demoHeadroom i) s →
    (∀ a, a ∈ loadedAddrs i s ++ storedAddrs i s → s.mapped a) → ∃ t, exec i s = .next t

/-- R103, R167 to R174: a row of `DEMO` raises an error only in strict mode, exactly when its declared headroom is missing,
and leaves the state as it was. -/
def Obligations.DemoRowsTrapOnlyInStrictMode : Prop :=
  ∀ (i : Instr) (s : State), isDemoRow i = true → ∀ (e : CoreError) (t : State),
    exec i s = .fault (.raised e t) ↔
      t = s ∧ s.strict = true ∧
        ((e = .stackOverflow ∧ 0 < demoHeadroom i ∧ (s.sp.toNat : Int) < demoHeadroom i) ∨
         (e = .stackUnderflow ∧ demoHeadroom i < 0 ∧ (255 - s.sp.toNat : Int) < -demoHeadroom i))

/-- R150 to R176: a row of `DEMO` leaves every byte of memory alone but those at the addresses it stores to: all of memory,
for a row that stores nothing. The controls, the table and the layout are unchanged, and so is the I/O history where every
address the row loads from and stores to is plain memory. -/
def Obligations.DemoMemoryFrame : Prop :=
  ∀ (i : Instr) (s t : State), isDemoRow i = true → exec i s = .next t →
    (∀ a, a ∉ storedAddrs i s → t.peek a = s.peek a) ∧ (storedAddrs i s = [] → t.regions = s.regions) ∧
      SameControls s t ∧
      ((∀ a, a ∈ loadedAddrs i s ++ storedAddrs i s → ∃ v, s.peek a = some v) → t.events = s.events)

/-- R150 to R176: the registers and flags a row of `DEMO` does not write are unchanged. A load and a transfer to A, X or Y
writes that register, Z and N; pushes, pulls, calls and returns also SP; TXS writes SP. -/
def Obligations.DemoRegisterFrame : Prop :=
  ∀ (i : Instr) (s t : State), isDemoRow i = true → exec i s = .next t →
    ((∀ b, i ≠ .ldaImm b) → (∀ b, i ≠ .ldaZp b) → (∀ w, i ≠ .ldaAbs w) → i ≠ .pla → t.a = s.a) ∧
    ((∀ b, i ≠ .ldxImm b) → i ≠ .tax → i ≠ .tsx → i ≠ .inx → i ≠ .dex → t.x = s.x) ∧
    ((∀ b, i ≠ .ldyImm b) → t.y = s.y) ∧
    (i ≠ .txs → i ≠ .pha → i ≠ .php → i ≠ .pla → i ≠ .plp → (∀ w, i ≠ .jsrAbs w) → i ≠ .rts → i ≠ .rti → t.sp = s.sp) ∧
    (i ≠ .plp → i ≠ .rti → t.flags.v = s.flags.v ∧ t.flags.b = s.flags.b ∧ t.flags.d = s.flags.d) ∧
    (i ≠ .plp → i ≠ .rti → i ≠ .cli → i ≠ .sei → t.flags.i = s.flags.i) ∧
    (i ≠ .plp → i ≠ .rti → i ≠ .clc → i ≠ .sec → t.flags.c = s.flags.c) ∧
    (i = .nop ∨ i = .txs ∨ i = .clc ∨ i = .sec ∨ i = .cli ∨ i = .sei ∨ i = .pha ∨ i = .php ∨ i = .rts ∨
        (∃ b, i = .staZp b ∨ i = .bneRel b ∨ i = .beqRel b) ∨ (∃ w, i = .staAbs w ∨ i = .jmpAbs w ∨ i = .jsrAbs w) →
      t.flags.z = s.flags.z ∧ t.flags.n = s.flags.n)

/-! ## Interrupts, reset, the host -/

/-- R206, R207, R208: `irq` and `nmi` differ in the vector alone. With too little headroom in strict mode they are refused
and nothing changes; otherwise the frame is pushed (here: onto RAM), I is set after the status is packed, and PC comes from
the vector (here: in plain memory). -/
def Obligations.InterruptPushesItsFrame : Prop :=
  ∀ (op : HostOp) (vector : Word) (s : State), (op = .irq ∧ vector = 0xFFFE) ∨ (op = .nmi ∧ vector = 0xFFFA) →
    (s.strict = true ∧ s.sp.toNat < 3 → perform op s = .fault (.raised .stackOverflow s)) ∧
    (¬(s.strict = true ∧ s.sp.toNat < 3) →
      perform op s =
        ((pushWord s.pc s).bind fun _ s1 => (pushByte (pack s.flags) s1).bind fun _ s2 =>
          (readVector vector (s2.setFlag .i true)).bind fun w s3 => .done () (s3.setPc w)).toOutcome) ∧
    (∀ l h, ¬(s.strict = true ∧ s.sp.toNat < 3) → s.isRamAt (stackAddr s.sp) → s.isRamAt (stackAddr (s.sp - 1)) →
      s.isRamAt (stackAddr (s.sp - 2)) → s.peek vector = some l → s.peek (vector + 1) = some h →
      ∃ t, perform op s = .next t ∧ t.peek (stackAddr s.sp) = some (hiByte s.pc) ∧
        t.peek (stackAddr (s.sp - 1)) = some (loByte s.pc) ∧ t.peek (stackAddr (s.sp - 2)) = some (pack s.flags) ∧
        (∀ a, a ≠ stackAddr s.sp → a ≠ stackAddr (s.sp - 1) → a ≠ stackAddr (s.sp - 2) → t.peek a = s.peek a) ∧
        t.sp = s.sp - 3 ∧ t.pc.toNat = h.toNat * 256 + l.toNat ∧ t.flags = { s.flags with i := true } ∧
        t.layout = s.layout ∧
        ((((t.setPc s.pc).setSp s.sp).setFlags s.flags).setRegions s.regions) = s)

/-- R213: RTI undoes an interrupt's frame: PC, SP and all seven flags are what they were, and so is every byte outside the
frame. -/
def Obligations.ReturnUndoesInterrupt : Prop :=
  ∀ (op : HostOp) (vector : Word) (s : State) (l h : Byte),
    (op = .irq ∧ vector = 0xFFFE) ∨ (op = .nmi ∧ vector = 0xFFFA) →
    ¬(s.strict = true ∧ s.sp.toNat < 3) → s.isRamAt (stackAddr s.sp) → s.isRamAt (stackAddr (s.sp - 1)) →
    s.isRamAt (stackAddr (s.sp - 2)) → s.peek vector = some l → s.peek (vector + 1) = some h →
    ∃ t u, perform op s = .next t ∧ exec .rti t = .next u ∧ u.setRegions s.regions = s ∧
      ∀ a, a ≠ stackAddr s.sp → a ≠ stackAddr (s.sp - 1) → a ≠ stackAddr (s.sp - 2) → u.peek a = s.peek a

/-- R241, R242: `reset` loads PC from the vector, zeroes A, X, Y and all flags but I, sets SP to 0xFF, and writes nothing
else; it reads 0xFFFC then 0xFFFD and nothing more. -/
def Obligations.ResetWritesItsListAndNothingElse : Prop :=
  (∀ s : State, perform .reset s =
    ((busRead 0xFFFC s).bind fun l s1 => (busRead 0xFFFD s1).bind fun h s2 =>
      .done () { s2 with
        pc := joinBytes h l, a := 0, x := 0, y := 0, sp := 0xFF,
        flags := { n := false, v := false, b := false, d := false, i := true, z := false, c := false } }).toOutcome) ∧
  (∀ (s : State) (l h : Byte), s.peek 0xFFFC = some l → s.peek 0xFFFD = some h →
    ∃ t, perform .reset s = .next t ∧ t.pc.toNat = h.toNat * 256 + l.toNat ∧ t.a = 0 ∧ t.x = 0 ∧ t.y = 0 ∧
      t.sp = 0xFF ∧ pack t.flags = 0x24 ∧ t.strict = s.strict ∧ t.trace = s.trace ∧ t.regions = s.regions ∧
      t.optab = s.optab ∧ t.events = s.events) ∧
  ∀ (s : State) (e : CoreError) (t : State), perform .reset s ≠ .fault (.raised e t)

/-- R240 (D20; log 18): `init` gives the all-zero state with an empty bus, after which every access misses (R51, R244). -/
def Obligations.InitIsAllZeroWithAnEmptyBus : Prop :=
  ∀ s : State, ∃ t, perform .init s = .next t ∧ t.a = 0 ∧ t.x = 0 ∧ t.y = 0 ∧ t.sp = 0 ∧ t.pc = 0 ∧
    pack t.flags = 0x20 ∧ t.strict = false ∧ t.trace = false ∧ t.regions = [] ∧
    (∀ a, busRead a t = .miss a) ∧ perform .reset t = .fault (.busMiss 0xFFFC)

/-- Logs 2 and 3: `State.reset` is what `init`, one RAM region over all addresses and `reset` leave, with `DEMO` as the
table. The launch makes no I/O: the history, whatever it is, stays. -/
def Obligations.LaunchLeavesTheResetState : Prop :=
  ∀ s : State, s.optab = Demo.table →
    performAll [.init, .addRam 0 65536, .reset] s = .next (State.reset.setEvents s.events)

/-- R19, R20, R41, R142: `set_strict` and `set_trace` write their bit and nothing else; strict is written by `set_strict`
and `init` alone, trace by `set_trace` and `init` alone, the layout by the registrations and `init` alone, the table by
nothing. -/
def Obligations.OnlyTheHostWritesControls : Prop :=
  (∀ (b : Bool) (s : State), perform (.setStrict b) s = .next { s with strict := b } ∧
    perform (.setTrace b) s = .next { s with trace := b }) ∧
  ∀ (op : HostOp) (s t : State), perform op s = .next t →
    (t.strict ≠ s.strict → op = .init ∨ ∃ b, op = .setStrict b ∧ t.strict = b) ∧
    (t.trace ≠ s.trace → op = .init ∨ ∃ b, op = .setTrace b ∧ t.trace = b) ∧
    (t.layout ≠ s.layout →
      op = .init ∨ (∃ a n, op = .addRam a n) ∨ (∃ a n bs, op = .addRomData a n bs) ∨ (∃ a im, op = .addRomFile a im) ∨
        ∃ a n h f g, op = .addIo a n h f g) ∧
    t.optab = s.optab

/-- R110, R111, R112 (D11, D25; log 13): `run` ends at the first step that returns an error, with the number of steps that
returned `OK` before it; `boot` is `reset`, then `run`. -/
def Obligations.RunEndsAtTheFirstError : Prop :=
  (∀ (fuel : Nat) (s : State) (e : CoreError) (n : Nat) (t : State),
    run fuel s = .ended e n t ↔
      n < fuel ∧ ∃ u, Host.Core.run Sys2Proof.core n s = .next u ∧ step u = .fault (.raised e t)) ∧
  ∀ (fuel : Nat) (s t : State), perform .reset s = .next t → boot fuel s = run fuel t

/-! ## Invariants -/

/-- The reset state meets the invariant: canonical memory and a well-formed table. -/
def Obligations.ResetMeetsTheInvariant : Prop := State.reset.wf

/-- Every step keeps the invariant. -/
def Obligations.StepKeepsTheInvariant : Prop := ∀ s t : State, s.wf → step s = .next t → t.wf

/-- Every operation of the host keeps the invariant. -/
def Obligations.HostOperationsKeepTheInvariant : Prop :=
  ∀ (op : HostOp) (s t : State), s.wf → perform op s = .next t → t.wf

/-- R51, R109, R143: on a platform whose regions cover every address, with a well-formed table, no run ever meets the model
fault or a refusal: every step is `OK` or one of the three errors. -/
def Obligations.FullyMappedRunsAreSafe : Prop :=
  ∀ (n : Nat) (s : State), s.optab.wf = true → s.fullyMapped → safeFor n s
end

