-- ==== Sys2Proof/Laws/Memory.lean ====
section
/-! SUPPORT. The laws of a region's buffer: read after write, and that every operation keeps the canonical form. -/

namespace Sys2Proof.Machine

@[simp] theorem Memory.get_nil (k : Nat) : Memory.get [] k = 0 := rfl

theorem Memory.get_cons (j : Nat) (u : Byte) (m : Memory) (k : Nat) :
    Memory.get ((j, u) :: m) k = if j = k then u else Memory.get m k := rfl

theorem Memory.get_erase (m : Memory) (k j : Nat) :
    (m.erase k).get j = if j = k then 0 else m.get j := by
  induction m with
  | nil => simp [Memory.erase]
  | cons c m ih =>
    obtain ⟨i, u⟩ := c
    by_cases hik : i = k
    · simp only [Memory.erase, hik, List.filter_cons, bne_self_eq_false, Bool.false_eq_true, if_false] at ih ⊢
      rw [ih, Memory.get_cons]
      by_cases hjk : j = k <;> simp [hjk, eq_comm]
      intro h; exact absurd h.symm hjk
    · simp only [Memory.erase, List.filter_cons, bne_iff_ne, ne_eq, hik, not_false_eq_true, if_true] at ih ⊢
      rw [Memory.get_cons, Memory.get_cons, ih]
      by_cases hij : i = j
      · subst hij; simp [hik]
      · simp [hij]

theorem Memory.get_insert (m : Memory) (k : Nat) (v : Byte) (h : ∀ c ∈ m, c.1 ≠ k) (j : Nat) :
    (m.insert k v).get j = if j = k then v else m.get j := by
  induction m with
  | nil => simp [Memory.insert, Memory.get_cons, eq_comm]
  | cons c m ih =>
    obtain ⟨i, u⟩ := c
    have hi : i ≠ k := h (i, u) (by simp)
    have ih := ih fun c hc => h c (by simp [hc])
    by_cases hlt : i < k
    · simp only [Memory.insert, hlt, if_true, Memory.get_cons, ih]
      by_cases hij : i = j
      · subst hij; simp [hi]
      · simp [hij]
    · simp only [Memory.insert, hlt, if_false]
      rw [Memory.get_cons k v]
      by_cases hjk : j = k
      · simp [hjk]
      · simp [hjk, Ne.symm hjk]

theorem Memory.erase_ne (m : Memory) (k : Nat) : ∀ c ∈ m.erase k, c.1 ≠ k := by
  intro c hc
  simpa using (List.mem_filter.mp hc).2

/-- Read after write: the byte written, and every other byte as before (R44). -/
theorem Memory.get_set (m : Memory) (k : Nat) (v : Byte) (j : Nat) :
    (m.set k v).get j = if j = k then v else m.get j := by
  by_cases hv : v = 0
  · simp [Memory.set, hv, Memory.get_erase]
  · simp only [Memory.set, hv, if_false, Memory.get_insert _ _ _ (m.erase_ne k), Memory.get_erase]
    by_cases hj : j = k <;> simp [hj]

theorem Memory.wf_nil : Memory.wf [] := by simp [Memory.wf]

theorem Memory.wf_erase {m : Memory} (h : m.wf) (k : Nat) : (m.erase k).wf :=
  ⟨h.1.filter _, fun c hc => h.2 c (List.mem_filter.mp hc).1⟩

theorem Memory.mem_insert {m : Memory} {k : Nat} {v : Byte} {c : Host.Cell} :
    c ∈ m.insert k v ↔ c = (k, v) ∨ c ∈ m := by
  induction m with
  | nil => simp [Memory.insert]
  | cons d m ih =>
    obtain ⟨i, u⟩ := d
    by_cases hlt : i < k
    · simp only [Memory.insert, hlt, if_true, List.mem_cons, ih]
      tauto
    · simp [Memory.insert, hlt]

theorem Memory.wf_insert {m : Memory} (h : m.wf) (k : Nat) {v : Byte} (hv : v ≠ 0) (hk : ∀ c ∈ m, c.1 ≠ k) :
    (m.insert k v).wf := by
  refine ⟨?_, fun c hc => (Memory.mem_insert.mp hc).elim (fun e => by simpa [e] using hv) (h.2 c)⟩
  have hp := h.1
  clear h
  induction m with
  | nil => simp [Memory.insert]
  | cons d m ih =>
    obtain ⟨i, u⟩ := d
    have hm := List.pairwise_cons.mp hp
    have hi : i ≠ k := hk (i, u) (by simp)
    by_cases hlt : i < k
    · simp only [Memory.insert, hlt, if_true, List.pairwise_cons]
      refine ⟨fun c hc => ?_, ih (fun c hc => hk c (by simp [hc])) hm.2⟩
      rcases Memory.mem_insert.mp hc with rfl | hc
      · exact hlt
      · exact hm.1 c hc
    · simp only [Memory.insert, hlt, if_false, List.pairwise_cons]
      refine ⟨fun c hc => ?_, hm⟩
      rcases List.mem_cons.mp hc with rfl | hc
      · show k < i
        omega
      · have := hm.1 c hc
        show k < c.1
        have : i < c.1 := this
        omega

/-- A write keeps the canonical form. -/
theorem Memory.wf_set {m : Memory} (h : m.wf) (k : Nat) (v : Byte) : (m.set k v).wf := by
  by_cases hv : v = 0
  · rw [Memory.set, if_pos hv]
    exact Memory.wf_erase h k
  · rw [Memory.set, if_neg hv]
    exact Memory.wf_insert (Memory.wf_erase h k) k hv (m.erase_ne k)

/-- A write lists no offset but the old ones and its own. -/
theorem Memory.mem_set {m : Memory} {k : Nat} {v : Byte} {c : Host.Cell} (h : c ∈ m.set k v) : c.1 = k ∨ c ∈ m := by
  by_cases hv : v = 0
  · simp only [Memory.set, hv, if_true] at h
    exact .inr (List.mem_filter.mp h).1
  · simp only [Memory.set, hv, if_false] at h
    rcases Memory.mem_insert.mp h with rfl | h
    · exact .inl rfl
    · exact .inr (List.mem_filter.mp h).1

theorem Memory.mem_ofBytes {k : Nat} {vs : List Byte} {c : Host.Cell} (h : c ∈ Memory.ofBytes k vs) :
    k ≤ c.1 ∧ c.1 < k + vs.length ∧ c.2 ≠ 0 := by
  induction vs generalizing k with
  | nil => simp [Memory.ofBytes] at h
  | cons v vs ih =>
    by_cases hv : v = 0
    · simp only [Memory.ofBytes, hv, if_true] at h
      obtain ⟨h1, h2, h3⟩ := ih h
      refine ⟨by omega, ?_, h3⟩
      simp only [List.length_cons]
      omega
    · simp only [Memory.ofBytes, hv, if_false, List.mem_cons] at h
      rcases h with rfl | h
      · exact ⟨le_rfl, by simp, hv⟩
      · obtain ⟨h1, h2, h3⟩ := ih h
        refine ⟨by omega, ?_, h3⟩
        simp only [List.length_cons]
        omega

/-- The buffer of a ROM region is canonical (R47). -/
theorem Memory.wf_ofBytes (k : Nat) (vs : List Byte) : (Memory.ofBytes k vs).wf := by
  refine ⟨?_, fun c hc => (Memory.mem_ofBytes hc).2.2⟩
  induction vs generalizing k with
  | nil => simp [Memory.ofBytes]
  | cons v vs ih =>
    by_cases hv : v = 0
    · simpa [Memory.ofBytes, hv] using ih (k + 1)
    · simp only [Memory.ofBytes, hv, if_false, List.pairwise_cons]
      refine ⟨fun c hc => ?_, ih (k + 1)⟩
      have := (Memory.mem_ofBytes hc).1
      show k < c.1
      omega

/-- `backing[i]` = `bytes[i]` (R47), and 0x00 past the bytes given. -/
theorem Memory.get_ofBytes (k : Nat) (vs : List Byte) (i : Nat) :
    (Memory.ofBytes k vs).get (k + i) = vs[i]?.getD 0 := by
  induction vs generalizing k i with
  | nil => simp [Memory.ofBytes]
  | cons v vs ih =>
    have key : ∀ i, (Memory.ofBytes (k + 1) vs).get (k + (i + 1)) = vs[i]?.getD 0 := fun i => by
      rw [← ih (k + 1) i]; congr 1; omega
    have hz : (Memory.ofBytes (k + 1) vs).get k = 0 := by
      have : ∀ c ∈ Memory.ofBytes (k + 1) vs, c.1 ≠ k := fun c hc => by
        have := (Memory.mem_ofBytes hc).1; omega
      generalize Memory.ofBytes (k + 1) vs = m at this
      induction m with
      | nil => rfl
      | cons d m ihm =>
        obtain ⟨j, u⟩ := d
        have hj : j ≠ k := this (j, u) (by simp)
        rw [Memory.get_cons, if_neg hj]
        exact ihm fun c hc => this c (by simp [hc])
    by_cases hv : v = 0
    · cases i with
      | zero => simpa [Memory.ofBytes, hv] using hz
      | succ i => simpa [Memory.ofBytes, hv] using key i
    · rw [Memory.ofBytes, if_neg hv, Memory.get_cons]
      cases i with
      | zero => simp
      | succ i =>
        rw [if_neg (by omega), key i]
        simp

end Sys2Proof.Machine
end

