-- ==== Sys2Proof/Laws/State.lean ====
section
/-! SUPPORT. One lemma per field per update of the state, so that no proof unfolds a record update. -/

namespace Sys2Proof.Machine

@[simp] theorem State.setA_a (v : Byte) (s : State) : (s.setA v).a = v := rfl
@[simp] theorem State.setA_x (v : Byte) (s : State) : (s.setA v).x = s.x := rfl
@[simp] theorem State.setA_y (v : Byte) (s : State) : (s.setA v).y = s.y := rfl
@[simp] theorem State.setA_sp (v : Byte) (s : State) : (s.setA v).sp = s.sp := rfl
@[simp] theorem State.setA_pc (v : Byte) (s : State) : (s.setA v).pc = s.pc := rfl
@[simp] theorem State.setA_flags (v : Byte) (s : State) : (s.setA v).flags = s.flags := rfl
@[simp] theorem State.setA_strict (v : Byte) (s : State) : (s.setA v).strict = s.strict := rfl
@[simp] theorem State.setA_trace (v : Byte) (s : State) : (s.setA v).trace = s.trace := rfl
@[simp] theorem State.setA_regions (v : Byte) (s : State) : (s.setA v).regions = s.regions := rfl
@[simp] theorem State.setA_optab (v : Byte) (s : State) : (s.setA v).optab = s.optab := rfl
@[simp] theorem State.setA_events (v : Byte) (s : State) : (s.setA v).events = s.events := rfl

@[simp] theorem State.setX_a (v : Byte) (s : State) : (s.setX v).a = s.a := rfl
@[simp] theorem State.setX_x (v : Byte) (s : State) : (s.setX v).x = v := rfl
@[simp] theorem State.setX_y (v : Byte) (s : State) : (s.setX v).y = s.y := rfl
@[simp] theorem State.setX_sp (v : Byte) (s : State) : (s.setX v).sp = s.sp := rfl
@[simp] theorem State.setX_pc (v : Byte) (s : State) : (s.setX v).pc = s.pc := rfl
@[simp] theorem State.setX_flags (v : Byte) (s : State) : (s.setX v).flags = s.flags := rfl
@[simp] theorem State.setX_strict (v : Byte) (s : State) : (s.setX v).strict = s.strict := rfl
@[simp] theorem State.setX_trace (v : Byte) (s : State) : (s.setX v).trace = s.trace := rfl
@[simp] theorem State.setX_regions (v : Byte) (s : State) : (s.setX v).regions = s.regions := rfl
@[simp] theorem State.setX_optab (v : Byte) (s : State) : (s.setX v).optab = s.optab := rfl
@[simp] theorem State.setX_events (v : Byte) (s : State) : (s.setX v).events = s.events := rfl

@[simp] theorem State.setY_a (v : Byte) (s : State) : (s.setY v).a = s.a := rfl
@[simp] theorem State.setY_x (v : Byte) (s : State) : (s.setY v).x = s.x := rfl
@[simp] theorem State.setY_y (v : Byte) (s : State) : (s.setY v).y = v := rfl
@[simp] theorem State.setY_sp (v : Byte) (s : State) : (s.setY v).sp = s.sp := rfl
@[simp] theorem State.setY_pc (v : Byte) (s : State) : (s.setY v).pc = s.pc := rfl
@[simp] theorem State.setY_flags (v : Byte) (s : State) : (s.setY v).flags = s.flags := rfl
@[simp] theorem State.setY_strict (v : Byte) (s : State) : (s.setY v).strict = s.strict := rfl
@[simp] theorem State.setY_trace (v : Byte) (s : State) : (s.setY v).trace = s.trace := rfl
@[simp] theorem State.setY_regions (v : Byte) (s : State) : (s.setY v).regions = s.regions := rfl
@[simp] theorem State.setY_optab (v : Byte) (s : State) : (s.setY v).optab = s.optab := rfl
@[simp] theorem State.setY_events (v : Byte) (s : State) : (s.setY v).events = s.events := rfl

@[simp] theorem State.setSp_a (v : Byte) (s : State) : (s.setSp v).a = s.a := rfl
@[simp] theorem State.setSp_x (v : Byte) (s : State) : (s.setSp v).x = s.x := rfl
@[simp] theorem State.setSp_y (v : Byte) (s : State) : (s.setSp v).y = s.y := rfl
@[simp] theorem State.setSp_sp (v : Byte) (s : State) : (s.setSp v).sp = v := rfl
@[simp] theorem State.setSp_pc (v : Byte) (s : State) : (s.setSp v).pc = s.pc := rfl
@[simp] theorem State.setSp_flags (v : Byte) (s : State) : (s.setSp v).flags = s.flags := rfl
@[simp] theorem State.setSp_strict (v : Byte) (s : State) : (s.setSp v).strict = s.strict := rfl
@[simp] theorem State.setSp_trace (v : Byte) (s : State) : (s.setSp v).trace = s.trace := rfl
@[simp] theorem State.setSp_regions (v : Byte) (s : State) : (s.setSp v).regions = s.regions := rfl
@[simp] theorem State.setSp_optab (v : Byte) (s : State) : (s.setSp v).optab = s.optab := rfl
@[simp] theorem State.setSp_events (v : Byte) (s : State) : (s.setSp v).events = s.events := rfl

@[simp] theorem State.setPc_a (v : Word) (s : State) : (s.setPc v).a = s.a := rfl
@[simp] theorem State.setPc_x (v : Word) (s : State) : (s.setPc v).x = s.x := rfl
@[simp] theorem State.setPc_y (v : Word) (s : State) : (s.setPc v).y = s.y := rfl
@[simp] theorem State.setPc_sp (v : Word) (s : State) : (s.setPc v).sp = s.sp := rfl
@[simp] theorem State.setPc_pc (v : Word) (s : State) : (s.setPc v).pc = v := rfl
@[simp] theorem State.setPc_flags (v : Word) (s : State) : (s.setPc v).flags = s.flags := rfl
@[simp] theorem State.setPc_strict (v : Word) (s : State) : (s.setPc v).strict = s.strict := rfl
@[simp] theorem State.setPc_trace (v : Word) (s : State) : (s.setPc v).trace = s.trace := rfl
@[simp] theorem State.setPc_regions (v : Word) (s : State) : (s.setPc v).regions = s.regions := rfl
@[simp] theorem State.setPc_optab (v : Word) (s : State) : (s.setPc v).optab = s.optab := rfl
@[simp] theorem State.setPc_events (v : Word) (s : State) : (s.setPc v).events = s.events := rfl

@[simp] theorem State.setFlags_a (v : Flags) (s : State) : (s.setFlags v).a = s.a := rfl
@[simp] theorem State.setFlags_x (v : Flags) (s : State) : (s.setFlags v).x = s.x := rfl
@[simp] theorem State.setFlags_y (v : Flags) (s : State) : (s.setFlags v).y = s.y := rfl
@[simp] theorem State.setFlags_sp (v : Flags) (s : State) : (s.setFlags v).sp = s.sp := rfl
@[simp] theorem State.setFlags_pc (v : Flags) (s : State) : (s.setFlags v).pc = s.pc := rfl
@[simp] theorem State.setFlags_flags (v : Flags) (s : State) : (s.setFlags v).flags = v := rfl
@[simp] theorem State.setFlags_strict (v : Flags) (s : State) : (s.setFlags v).strict = s.strict := rfl
@[simp] theorem State.setFlags_trace (v : Flags) (s : State) : (s.setFlags v).trace = s.trace := rfl
@[simp] theorem State.setFlags_regions (v : Flags) (s : State) : (s.setFlags v).regions = s.regions := rfl
@[simp] theorem State.setFlags_optab (v : Flags) (s : State) : (s.setFlags v).optab = s.optab := rfl
@[simp] theorem State.setFlags_events (v : Flags) (s : State) : (s.setFlags v).events = s.events := rfl

@[simp] theorem State.setStrict_a (v : Bool) (s : State) : (s.setStrict v).a = s.a := rfl
@[simp] theorem State.setStrict_x (v : Bool) (s : State) : (s.setStrict v).x = s.x := rfl
@[simp] theorem State.setStrict_y (v : Bool) (s : State) : (s.setStrict v).y = s.y := rfl
@[simp] theorem State.setStrict_sp (v : Bool) (s : State) : (s.setStrict v).sp = s.sp := rfl
@[simp] theorem State.setStrict_pc (v : Bool) (s : State) : (s.setStrict v).pc = s.pc := rfl
@[simp] theorem State.setStrict_flags (v : Bool) (s : State) : (s.setStrict v).flags = s.flags := rfl
@[simp] theorem State.setStrict_strict (v : Bool) (s : State) : (s.setStrict v).strict = v := rfl
@[simp] theorem State.setStrict_trace (v : Bool) (s : State) : (s.setStrict v).trace = s.trace := rfl
@[simp] theorem State.setStrict_regions (v : Bool) (s : State) : (s.setStrict v).regions = s.regions := rfl
@[simp] theorem State.setStrict_optab (v : Bool) (s : State) : (s.setStrict v).optab = s.optab := rfl
@[simp] theorem State.setStrict_events (v : Bool) (s : State) : (s.setStrict v).events = s.events := rfl

@[simp] theorem State.setTrace_a (v : Bool) (s : State) : (s.setTrace v).a = s.a := rfl
@[simp] theorem State.setTrace_x (v : Bool) (s : State) : (s.setTrace v).x = s.x := rfl
@[simp] theorem State.setTrace_y (v : Bool) (s : State) : (s.setTrace v).y = s.y := rfl
@[simp] theorem State.setTrace_sp (v : Bool) (s : State) : (s.setTrace v).sp = s.sp := rfl
@[simp] theorem State.setTrace_pc (v : Bool) (s : State) : (s.setTrace v).pc = s.pc := rfl
@[simp] theorem State.setTrace_flags (v : Bool) (s : State) : (s.setTrace v).flags = s.flags := rfl
@[simp] theorem State.setTrace_strict (v : Bool) (s : State) : (s.setTrace v).strict = s.strict := rfl
@[simp] theorem State.setTrace_trace (v : Bool) (s : State) : (s.setTrace v).trace = v := rfl
@[simp] theorem State.setTrace_regions (v : Bool) (s : State) : (s.setTrace v).regions = s.regions := rfl
@[simp] theorem State.setTrace_optab (v : Bool) (s : State) : (s.setTrace v).optab = s.optab := rfl
@[simp] theorem State.setTrace_events (v : Bool) (s : State) : (s.setTrace v).events = s.events := rfl

@[simp] theorem State.setRegions_a (v : List Region) (s : State) : (s.setRegions v).a = s.a := rfl
@[simp] theorem State.setRegions_x (v : List Region) (s : State) : (s.setRegions v).x = s.x := rfl
@[simp] theorem State.setRegions_y (v : List Region) (s : State) : (s.setRegions v).y = s.y := rfl
@[simp] theorem State.setRegions_sp (v : List Region) (s : State) : (s.setRegions v).sp = s.sp := rfl
@[simp] theorem State.setRegions_pc (v : List Region) (s : State) : (s.setRegions v).pc = s.pc := rfl
@[simp] theorem State.setRegions_flags (v : List Region) (s : State) : (s.setRegions v).flags = s.flags := rfl
@[simp] theorem State.setRegions_strict (v : List Region) (s : State) : (s.setRegions v).strict = s.strict := rfl
@[simp] theorem State.setRegions_trace (v : List Region) (s : State) : (s.setRegions v).trace = s.trace := rfl
@[simp] theorem State.setRegions_regions (v : List Region) (s : State) : (s.setRegions v).regions = v := rfl
@[simp] theorem State.setRegions_optab (v : List Region) (s : State) : (s.setRegions v).optab = s.optab := rfl
@[simp] theorem State.setRegions_events (v : List Region) (s : State) : (s.setRegions v).events = s.events := rfl

@[simp] theorem State.setEvents_a (v : List IoEvent) (s : State) : (s.setEvents v).a = s.a := rfl
@[simp] theorem State.setEvents_x (v : List IoEvent) (s : State) : (s.setEvents v).x = s.x := rfl
@[simp] theorem State.setEvents_y (v : List IoEvent) (s : State) : (s.setEvents v).y = s.y := rfl
@[simp] theorem State.setEvents_sp (v : List IoEvent) (s : State) : (s.setEvents v).sp = s.sp := rfl
@[simp] theorem State.setEvents_pc (v : List IoEvent) (s : State) : (s.setEvents v).pc = s.pc := rfl
@[simp] theorem State.setEvents_flags (v : List IoEvent) (s : State) : (s.setEvents v).flags = s.flags := rfl
@[simp] theorem State.setEvents_strict (v : List IoEvent) (s : State) : (s.setEvents v).strict = s.strict := rfl
@[simp] theorem State.setEvents_trace (v : List IoEvent) (s : State) : (s.setEvents v).trace = s.trace := rfl
@[simp] theorem State.setEvents_regions (v : List IoEvent) (s : State) : (s.setEvents v).regions = s.regions := rfl
@[simp] theorem State.setEvents_optab (v : List IoEvent) (s : State) : (s.setEvents v).optab = s.optab := rfl
@[simp] theorem State.setEvents_events (v : List IoEvent) (s : State) : (s.setEvents v).events = v := rfl

@[simp] theorem State.setZN_a (v : Byte) (s : State) : (s.setZN v).a = s.a := rfl
@[simp] theorem State.setZN_x (v : Byte) (s : State) : (s.setZN v).x = s.x := rfl
@[simp] theorem State.setZN_y (v : Byte) (s : State) : (s.setZN v).y = s.y := rfl
@[simp] theorem State.setZN_sp (v : Byte) (s : State) : (s.setZN v).sp = s.sp := rfl
@[simp] theorem State.setZN_pc (v : Byte) (s : State) : (s.setZN v).pc = s.pc := rfl
@[simp] theorem State.setZN_strict (v : Byte) (s : State) : (s.setZN v).strict = s.strict := rfl
@[simp] theorem State.setZN_trace (v : Byte) (s : State) : (s.setZN v).trace = s.trace := rfl
@[simp] theorem State.setZN_regions (v : Byte) (s : State) : (s.setZN v).regions = s.regions := rfl
@[simp] theorem State.setZN_optab (v : Byte) (s : State) : (s.setZN v).optab = s.optab := rfl
@[simp] theorem State.setZN_events (v : Byte) (s : State) : (s.setZN v).events = s.events := rfl
@[simp] theorem State.setZN_flags (v : Byte) (s : State) : (s.setZN v).flags = s.flags.setZN v := rfl

@[simp] theorem State.setFlag_a (k : Flag) (v : Bool) (s : State) : (s.setFlag k v).a = s.a := rfl
@[simp] theorem State.setFlag_x (k : Flag) (v : Bool) (s : State) : (s.setFlag k v).x = s.x := rfl
@[simp] theorem State.setFlag_y (k : Flag) (v : Bool) (s : State) : (s.setFlag k v).y = s.y := rfl
@[simp] theorem State.setFlag_sp (k : Flag) (v : Bool) (s : State) : (s.setFlag k v).sp = s.sp := rfl
@[simp] theorem State.setFlag_pc (k : Flag) (v : Bool) (s : State) : (s.setFlag k v).pc = s.pc := rfl
@[simp] theorem State.setFlag_strict (k : Flag) (v : Bool) (s : State) : (s.setFlag k v).strict = s.strict := rfl
@[simp] theorem State.setFlag_trace (k : Flag) (v : Bool) (s : State) : (s.setFlag k v).trace = s.trace := rfl
@[simp] theorem State.setFlag_regions (k : Flag) (v : Bool) (s : State) : (s.setFlag k v).regions = s.regions := rfl
@[simp] theorem State.setFlag_optab (k : Flag) (v : Bool) (s : State) : (s.setFlag k v).optab = s.optab := rfl
@[simp] theorem State.setFlag_events (k : Flag) (v : Bool) (s : State) : (s.setFlag k v).events = s.events := rfl
@[simp] theorem State.setFlag_flags (k : Flag) (v : Bool) (s : State) : (s.setFlag k v).flags = s.flags.set k v := rfl

@[simp] theorem State.setReg_strict (r : Reg) (v : Byte) (s : State) : (s.setReg r v).strict = s.strict := by
  cases r <;> rfl
@[simp] theorem State.setReg_trace (r : Reg) (v : Byte) (s : State) : (s.setReg r v).trace = s.trace := by
  cases r <;> rfl
@[simp] theorem State.setReg_regions (r : Reg) (v : Byte) (s : State) : (s.setReg r v).regions = s.regions := by
  cases r <;> rfl
@[simp] theorem State.setReg_optab (r : Reg) (v : Byte) (s : State) : (s.setReg r v).optab = s.optab := by
  cases r <;> rfl
@[simp] theorem State.setReg_events (r : Reg) (v : Byte) (s : State) : (s.setReg r v).events = s.events := by
  cases r <;> rfl
@[simp] theorem State.setReg_pc (r : Reg) (v : Byte) (s : State) : (s.setReg r v).pc = s.pc := by
  cases r <;> rfl
@[simp] theorem State.setReg_flags (r : Reg) (v : Byte) (s : State) : (s.setReg r v).flags = s.flags := by
  cases r <;> rfl

@[simp] theorem State.setEvents_self (s : State) : s.setEvents s.events = s := rfl
@[simp] theorem State.setRegions_self (s : State) : s.setRegions s.regions = s := rfl
@[simp] theorem State.setEvents_setEvents (e f : List IoEvent) (s : State) :
    (s.setEvents e).setEvents f = s.setEvents f := rfl

/-- States are equal when their fields are. -/
theorem State.eq_of_fields {s t : State} (h1 : s.a = t.a) (h2 : s.x = t.x) (h3 : s.y = t.y) (h4 : s.sp = t.sp)
    (h5 : s.pc = t.pc) (h6 : s.flags = t.flags) (h7 : s.strict = t.strict) (h8 : s.trace = t.trace)
    (h9 : s.regions = t.regions) (h10 : s.optab = t.optab) (h11 : s.events = t.events) : s = t := by
  cases s
  cases t
  simp_all

end Sys2Proof.Machine
end

