-- ==== Sys2Proof/Laws/Bus.lean ====
section
/-! SUPPORT. The laws of resolution and of the two bus operations (R41 to R45, R50, R51): what each can do, said once. -/

namespace Sys2Proof.Machine

/-! ## Results -/

@[simp] theorem Bus.bind_done {α β : Type} (v : α) (s : State) (k : α → State → Bus β) :
    (Bus.done v s).bind k = k v s := rfl

@[simp] theorem Bus.bind_miss {α β : Type} (a : Word) (k : α → State → Bus β) : (Bus.miss a).bind k = .miss a := rfl

@[simp] theorem Bus.toOutcome_done {α : Type} (v : α) (s : State) : (Bus.done v s).toOutcome = .next s := rfl

@[simp] theorem Bus.toOutcome_miss {α : Type} (a : Word) : (Bus.miss a : Bus α).toOutcome = .fault (.busMiss a) := rfl

theorem Bus.bind_assoc {α β γ : Type} (r : Bus α) (k : α → State → Bus β) (m : β → State → Bus γ) :
    (r.bind k).bind m = r.bind fun v s => (k v s).bind m := by
  cases r <;> rfl

@[simp] theorem Bus.bind_unit (r : Bus Unit) : (r.bind fun _ s => .done () s) = r := by cases r <;> rfl

theorem Bus.bind_eq_done {α β : Type} {r : Bus α} {k : α → State → Bus β} {v : β} {t : State} :
    r.bind k = .done v t ↔ ∃ u s, r = .done u s ∧ k u s = .done v t := by
  cases r with
  | done u s => simp
  | miss a => simp

theorem Bus.bind_eq_miss {α β : Type} {r : Bus α} {k : α → State → Bus β} {a : Word} :
    r.bind k = .miss a ↔ r = .miss a ∨ ∃ u s, r = .done u s ∧ k u s = .miss a := by
  cases r with
  | done u s => simp
  | miss b => simp

theorem Bus.toOutcome_eq_next {α : Type} {r : Bus α} {t : State} : r.toOutcome = .next t ↔ ∃ v, r = .done v t := by
  cases r with
  | done v s => simp
  | miss a => simp

theorem Bus.toOutcome_eq_fault {α : Type} {r : Bus α} {f : Fault} :
    r.toOutcome = .fault f ↔ ∃ a, r = .miss a ∧ f = .busMiss a := by
  cases r with
  | done v s => simp
  | miss a => simp [eq_comm]

theorem Bus.toOutcome_ne_refused {α : Type} (r : Bus α) (x : Refusal) : r.toOutcome ≠ .refused x := by
  cases r <;> simp

/-! ## Regions -/

@[simp] theorem Region.store_covers (r : Region) (a : Word) (v : Byte) (b : Word) :
    (r.store a v).covers b = r.covers b := by
  unfold Region.store
  split <;> rfl

@[simp] theorem Region.store_shape (r : Region) (a : Word) (v : Byte) : (r.store a v).shape = r.shape := by
  unfold Region.store
  split <;> simp_all [Region.shape]

@[simp] theorem Region.store_isPlain (r : Region) (a : Word) (v : Byte) : (r.store a v).isPlain = r.isPlain := by
  unfold Region.store
  split <;> simp_all [Region.isPlain]

@[simp] theorem Region.store_isRam (r : Region) (a : Word) (v : Byte) : (r.store a v).isRam = r.isRam := by
  unfold Region.store
  split <;> simp_all [Region.isRam]

theorem Region.isPlain_of_isRam {r : Region} (h : r.isRam = true) : r.isPlain = true := by
  unfold Region.isRam at h
  unfold Region.isPlain
  split at h <;> simp_all

/-- A RAM region reads back the byte written (R44). -/
theorem Region.load_store_same {r : Region} (h : r.isRam = true) (a : Word) (v : Byte) : (r.store a v).load a = v := by
  unfold Region.isRam at h
  split at h
  · rename_i m hm
    simp [Region.store, hm, Region.load, Region.memory, Region.offset, Memory.get_set]
  · exact absurd h (by simp)

/-- A write leaves every other byte of the region alone (R44). -/
theorem Region.load_store_other {r : Region} {a b : Word} (ha : r.covers a = true) (hb : r.covers b = true)
    (hab : a ≠ b) (v : Byte) : (r.store a v).load b = r.load b := by
  have hne : r.offset b ≠ r.offset a := by
    intro h
    simp only [Region.covers, Bool.and_eq_true, decide_eq_true_eq, Region.offset] at ha hb h
    apply hab
    apply BitVec.eq_of_toNat_eq
    omega
  unfold Region.store
  split
  · rename_i m hm
    have hm' : r.memory = m := by simp [Region.memory, hm]
    have e : ∀ (m' : Memory) (c : Word),
        ({ r with backing := .ram m' } : Region).load c = m'.get (r.offset c) := fun _ _ => rfl
    rw [e, Memory.get_set, if_neg hne, Region.load, hm']
  · rfl

theorem Region.wf_store {r : Region} (h : r.wf) {a : Word} (ha : r.covers a = true) (v : Byte) : (r.store a v).wf := by
  unfold Region.store
  split
  · rename_i m hm
    have hmem : r.memory = m := by simp [Region.memory, hm]
    rw [Region.wf, hmem] at h
    refine ⟨Memory.wf_set h.1 _ _, fun c hc => ?_⟩
    rcases Memory.mem_set hc with he | hc
    · simp only [Region.covers, Bool.and_eq_true, decide_eq_true_eq] at ha
      show c.1 < r.length
      rw [he, Region.offset]
      omega
    · exact h.2 c hc
  · exact h

/-! ## Resolution -/

theorem resolve_cons (r : Region) (rs : List Region) (a : Word) :
    resolve (r :: rs) a = if r.covers a then some r else resolve rs a := rfl

/-- `Resolve` answers the first region, front to back, that covers the address (R41). -/
theorem resolve_eq_some {rs : List Region} {a : Word} {r : Region} :
    resolve rs a = some r ↔
      ∃ front back, rs = front ++ r :: back ∧ (∀ q ∈ front, q.covers a = false) ∧ r.covers a = true := by
  induction rs with
  | nil => simp [resolve]
  | cons q rs ih =>
    rw [resolve_cons]
    by_cases hq : q.covers a
    · rw [if_pos hq]
      constructor
      · intro h
        obtain rfl := Option.some.inj h
        exact ⟨[], rs, rfl, by simp, hq⟩
      · rintro ⟨front, back, he, hf, hr⟩
        cases front with
        | nil => simp only [List.nil_append, List.cons.injEq] at he; rw [he.1]
        | cons p front =>
          simp only [List.cons_append, List.cons.injEq] at he
          exact absurd (hf p (by simp)) (by simp [← he.1, hq])
    · rw [if_neg hq, ih]
      constructor
      · rintro ⟨front, back, rfl, hf, hr⟩
        exact ⟨q :: front, back, rfl, by simpa [hq] using hf, hr⟩
      · rintro ⟨front, back, he, hf, hr⟩
        cases front with
        | nil =>
          simp only [List.nil_append, List.cons.injEq] at he
          exact absurd hr (by simp [← he.1, hq])
        | cons p front =>
          simp only [List.cons_append, List.cons.injEq] at he
          exact ⟨front, back, he.2, fun q hq => hf q (by simp [hq]), hr⟩

theorem resolve_covers {rs : List Region} {a : Word} {r : Region} (h : resolve rs a = some r) : r.covers a = true := by
  obtain ⟨_, _, _, _, h⟩ := resolve_eq_some.mp h
  exact h

theorem resolve_mem {rs : List Region} {a : Word} {r : Region} (h : resolve rs a = some r) : r ∈ rs := by
  obtain ⟨_, _, h, _⟩ := resolve_eq_some.mp h
  simp [h]

/-- No region covers the address (R51). -/
theorem resolve_eq_none {rs : List Region} {a : Word} : resolve rs a = none ↔ ∀ r ∈ rs, r.covers a = false := by
  induction rs with
  | nil => simp [resolve]
  | cons q rs ih =>
    rw [resolve_cons]
    by_cases hq : q.covers a <;> simp [hq, ih]

/-- A write through the first covering region keeps the layout. -/
theorem storeFirst_shape (rs : List Region) (a : Word) (v : Byte) :
    (storeFirst rs a v).map Region.shape = rs.map Region.shape := by
  induction rs with
  | nil => rfl
  | cons r rs ih =>
    unfold storeFirst
    split <;> simp [ih]

/-- Resolution after a write: the same region, with the byte stored in it when it is the one written. -/
theorem resolve_storeFirst_same {rs : List Region} {a : Word} {r : Region} (h : resolve rs a = some r) (v : Byte) :
    resolve (storeFirst rs a v) a = some (r.store a v) := by
  induction rs with
  | nil => simp [resolve] at h
  | cons q rs ih =>
    rw [resolve_cons] at h
    unfold storeFirst
    by_cases hq : q.covers a
    · rw [if_pos hq] at h ⊢
      obtain rfl := Option.some.inj h
      rw [resolve_cons, Region.store_covers, if_pos hq]
    · rw [if_neg hq] at h ⊢
      rw [resolve_cons, if_neg hq, ih h]

/-- Any other address resolves to a region of the same kind and layout that holds the same byte there. -/
theorem resolve_storeFirst_other {α : Type} (f : Region → α) {rs : List Region} {a b : Word} (v : Byte)
    (hf : ∀ r : Region, r.covers a = true → r.covers b = true → f (r.store a v) = f r) :
    (resolve (storeFirst rs a v) b).map f = (resolve rs b).map f := by
  induction rs with
  | nil => rfl
  | cons q rs ih =>
    unfold storeFirst
    by_cases hq : q.covers a
    · rw [if_pos hq, resolve_cons, resolve_cons, Region.store_covers]
      by_cases hb : q.covers b
      · rw [if_pos hb, if_pos hb, Option.map_some, Option.map_some, hf q hq hb]
      · rw [if_neg hb, if_neg hb]
    · rw [if_neg hq, resolve_cons, resolve_cons]
      by_cases hb : q.covers b
      · rw [if_pos hb, if_pos hb]
      · rw [if_neg hb, if_neg hb, ih]

theorem storeFirst_wf {rs : List Region} (h : ∀ r ∈ rs, r.wf) (a : Word) (v : Byte) :
    ∀ r ∈ storeFirst rs a v, r.wf := by
  induction rs with
  | nil => simp [storeFirst]
  | cons q rs ih =>
    unfold storeFirst
    by_cases hq : q.covers a
    · rw [if_pos hq]
      intro r hr
      rcases List.mem_cons.mp hr with rfl | hr
      · exact Region.wf_store (h q (by simp)) hq v
      · exact h r (by simp [hr])
    · rw [if_neg hq]
      intro r hr
      rcases List.mem_cons.mp hr with rfl | hr
      · exact h r (by simp)
      · exact ih (fun r hr => h r (by simp [hr])) r hr

/-! ## Reading (R42) -/

/-- Everything a bus read can do. -/
theorem busRead_cases (a : Word) (s : State) :
    (resolve s.regions a = none ∧ busRead a s = .miss a) ∨
    (∃ r, resolve s.regions a = some r ∧ r.isPlain = true ∧ busRead a s = .done (r.load a) s) ∨
    (∃ r handle readFn writeFn, resolve s.regions a = some r ∧ r.backing = .io handle readFn writeFn ∧
      busRead a s = ioRead readFn handle a s) := by
  unfold busRead
  cases h : resolve s.regions a with
  | none => exact .inl ⟨rfl, rfl⟩
  | some r =>
    refine .inr ?_
    cases hb : r.backing with
    | ram m => exact .inl ⟨r, rfl, by simp [Region.isPlain, hb], by simp [Region.load, Region.memory, hb]⟩
    | rom m => exact .inl ⟨r, rfl, by simp [Region.isPlain, hb], by simp [Region.load, Region.memory, hb]⟩
    | io handle readFn writeFn => exact .inr ⟨r, handle, readFn, writeFn, rfl, hb, by simp [hb]⟩

/-- A read of plain memory answers its byte and changes nothing (R42, R58). -/
theorem busRead_of_peek {a : Word} {s : State} {v : Byte} (h : s.peek a = some v) : busRead a s = .done v s := by
  unfold State.peek at h
  rcases busRead_cases a s with ⟨hr, _⟩ | ⟨r, hr, hp, hd⟩ | ⟨r, _, _, _, hr, hb, _⟩
  · simp [hr] at h
  · simp only [hr, hp, if_true, Option.some.injEq] at h
    rw [hd, h]
  · simp [hr, Region.isPlain, hb] at h

theorem busRead_unmapped {a : Word} {s : State} (h : resolve s.regions a = none) : busRead a s = .miss a := by
  simp [busRead, h]

/-- A read changes nothing but, perhaps, the I/O history, and there it adds at most its own entry (R50). -/
theorem busRead_frame {a : Word} {s t : State} {v : Byte} (h : busRead a s = .done v t) :
    t = s ∨ ∃ fn handle, t = s.setEvents (.read fn handle a v :: s.events) := by
  rcases busRead_cases a s with ⟨_, hd⟩ | ⟨r, _, _, hd⟩ | ⟨r, handle, fn, _, _, _, hd⟩
  · simp [hd] at h
  · rw [hd] at h
    simp only [Bus.done.injEq] at h
    exact .inl h.2.symm
  · rw [hd] at h
    simp only [ioRead, Bus.done.injEq] at h
    obtain ⟨hv, ht⟩ := h
    exact .inr ⟨fn, handle, by rw [← ht, ← hv]⟩

theorem busRead_events {a : Word} {s t : State} {v : Byte} (h : busRead a s = .done v t) :
    t = s.setEvents t.events := by
  rcases busRead_frame h with rfl | ⟨_, _, rfl⟩ <;> rfl

/-- A mapped address answers a read. -/
theorem busRead_mapped {a : Word} {s : State} (h : s.mapped a) : ∃ v t, busRead a s = .done v t := by
  unfold State.mapped at h
  rcases busRead_cases a s with ⟨hr, _⟩ | ⟨r, _, _, hd⟩ | ⟨r, handle, fn, _, _, _, hd⟩
  · simp [hr] at h
  · exact ⟨_, _, hd⟩
  · exact ⟨_, _, hd⟩

/-! ## Writing (R43) -/

/-- Everything a bus write can do. -/
theorem busWrite_cases (a : Word) (v : Byte) (s : State) :
    (resolve s.regions a = none ∧ busWrite a v s = .miss a) ∨
    (s.isRamAt a ∧ busWrite a v s = .done () (s.setRegions (storeFirst s.regions a v))) ∨
    (∃ r m, resolve s.regions a = some r ∧ r.backing = .rom m ∧ busWrite a v s = .done () s) ∨
    (∃ r handle readFn writeFn, resolve s.regions a = some r ∧ r.backing = .io handle readFn writeFn ∧
      busWrite a v s = ioWrite writeFn handle a v s) := by
  unfold busWrite
  cases h : resolve s.regions a with
  | none => exact .inl ⟨rfl, rfl⟩
  | some r =>
    refine .inr ?_
    cases hb : r.backing with
    | ram m => exact .inl ⟨⟨r, h, by simp [Region.isRam, hb]⟩, by simp [hb]⟩
    | rom m => exact .inr (.inl ⟨r, m, rfl, hb, by simp [hb]⟩)
    | io handle readFn writeFn => exact .inr (.inr ⟨r, handle, readFn, writeFn, rfl, hb, by simp [hb]⟩)

/-- A write to RAM stores the byte and nothing else (R44). -/
theorem busWrite_ram {a : Word} {v : Byte} {s : State} (h : s.isRamAt a) :
    busWrite a v s = .done () (s.setRegions (storeFirst s.regions a v)) := by
  obtain ⟨r, hr, hm⟩ := h
  unfold busWrite
  rw [hr]
  cases hb : r.backing with
  | ram m => simp [hb]
  | rom m => simp [Region.isRam, hb] at hm
  | io handle readFn writeFn => simp [Region.isRam, hb] at hm

theorem busWrite_unmapped {a : Word} {v : Byte} {s : State} (h : resolve s.regions a = none) :
    busWrite a v s = .miss a := by
  simp [busWrite, h]

/-- A write changes the regions and the I/O history only (R43, R50). -/
theorem busWrite_frame {a : Word} {v : Byte} {s t : State} (h : busWrite a v s = .done () t) :
    t = s.setRegions (storeFirst s.regions a v) ∨ t = s ∨
      ∃ fn handle, t = s.setEvents (.write fn handle a v :: s.events) := by
  rcases busWrite_cases a v s with ⟨_, hd⟩ | ⟨_, hd⟩ | ⟨r, m, _, _, hd⟩ | ⟨r, handle, _, fn, _, _, hd⟩
  · simp [hd] at h
  · rw [hd] at h
    simp only [Bus.done.injEq, true_and] at h
    exact .inl h.symm
  · rw [hd] at h
    simp only [Bus.done.injEq, true_and] at h
    exact .inr (.inl h.symm)
  · rw [hd] at h
    simp only [ioWrite, Bus.done.injEq, true_and] at h
    exact .inr (.inr ⟨fn, handle, h.symm⟩)

theorem busWrite_mapped {a : Word} {v : Byte} {s : State} (h : s.mapped a) : ∃ t, busWrite a v s = .done () t := by
  unfold State.mapped at h
  rcases busWrite_cases a v s with ⟨hr, _⟩ | ⟨_, hd⟩ | ⟨r, m, _, _, hd⟩ | ⟨r, handle, _, fn, _, _, hd⟩
  · simp [hr] at h
  · exact ⟨_, hd⟩
  · exact ⟨_, hd⟩
  · exact ⟨_, hd⟩

/-- A write keeps the layout of the address space (R41, R45). -/
theorem busWrite_layout {a : Word} {v : Byte} {s t : State} (h : busWrite a v s = .done () t) : t.layout = s.layout := by
  rcases busWrite_frame h with rfl | rfl | ⟨_, _, rfl⟩
  · exact storeFirst_shape _ _ _
  · rfl
  · rfl

/-! ## Plain memory, before and after -/

theorem State.peek_congr {s t : State} (h : t.regions = s.regions) (a : Word) : t.peek a = s.peek a := by
  simp [State.peek, h]

theorem State.peek_isRamAt {s : State} {a : Word} (h : s.isRamAt a) : ∃ v, s.peek a = some v := by
  obtain ⟨r, hr, hm⟩ := h
  exact ⟨r.load a, by simp [State.peek, hr, Region.isPlain_of_isRam hm]⟩

theorem State.peek_eq (s : State) (a : Word) :
    s.peek a = (((resolve s.regions a).map fun r => if r.isPlain then some (r.load a) else none).getD none) := by
  unfold State.peek
  cases resolve s.regions a <;> rfl

/-- The byte written to RAM is the byte read (R44, R59). -/
theorem State.peek_store_same {s : State} {a : Word} (h : s.isRamAt a) (v : Byte) :
    (s.setRegions (storeFirst s.regions a v)).peek a = some v := by
  obtain ⟨r, hr, hm⟩ := h
  rw [State.peek_eq, State.setRegions_regions, resolve_storeFirst_same hr]
  simp [Region.isPlain_of_isRam hm, Region.load_store_same hm]

/-- Every other byte is as it was (R44, R59). -/
theorem State.peek_store_other {s : State} {a b : Word} (hab : a ≠ b) (v : Byte) :
    (s.setRegions (storeFirst s.regions a v)).peek b = s.peek b := by
  rw [State.peek_eq, State.peek_eq, State.setRegions_regions]
  congr 1
  exact resolve_storeFirst_other _ v fun r ha hb => by
    rw [Region.store_isPlain, Region.load_store_other ha hb hab]

theorem busWrite_peek_other {a b : Word} {v : Byte} {s t : State} (h : busWrite a v s = .done () t) (hab : a ≠ b) :
    t.peek b = s.peek b := by
  rcases busWrite_frame h with rfl | rfl | ⟨_, _, rfl⟩
  · exact State.peek_store_other hab v
  · rfl
  · rfl

theorem busRead_peek {a b : Word} {v : Byte} {s t : State} (h : busRead a s = .done v t) : t.peek b = s.peek b := by
  rcases busRead_frame h with rfl | ⟨_, _, rfl⟩ <;> rfl

/-- A write leaves every address of the kind it was: RAM stays RAM, mapped stays mapped. -/
theorem isRamAt_storeFirst {s : State} {a : Word} {v : Byte} {b : Word} :
    (s.setRegions (storeFirst s.regions a v)).isRamAt b ↔ s.isRamAt b := by
  have h := resolve_storeFirst_other (rs := s.regions) (a := a) (b := b) Region.isRam v
    fun r _ _ => Region.store_isRam r a v
  unfold State.isRamAt
  rw [State.setRegions_regions]
  constructor
  · rintro ⟨r, hr, hm⟩
    rw [hr] at h
    cases hq : resolve s.regions b with
    | none => simp [hq] at h
    | some q => exact ⟨q, rfl, by simpa [hq, hm] using h.symm⟩
  · rintro ⟨r, hr, hm⟩
    rw [hr] at h
    cases hq : resolve (storeFirst s.regions a v) b with
    | none => simp [hq] at h
    | some q => exact ⟨q, rfl, by simpa [hq, hm] using h⟩

theorem mapped_storeFirst {s : State} {a : Word} {v : Byte} {b : Word} :
    (s.setRegions (storeFirst s.regions a v)).mapped b ↔ s.mapped b := by
  have h := resolve_storeFirst_other (rs := s.regions) (a := a) (b := b) (fun _ => ()) v fun _ _ _ => rfl
  unfold State.mapped
  rw [State.setRegions_regions]
  cases hq : resolve (storeFirst s.regions a v) b <;> cases hp : resolve s.regions b <;> simp_all

theorem busWrite_mapped_after {a b : Word} {v : Byte} {s t : State} (h : busWrite a v s = .done () t) :
    t.mapped b ↔ s.mapped b := by
  rcases busWrite_frame h with rfl | rfl | ⟨_, _, rfl⟩
  · exact mapped_storeFirst
  · rfl
  · rfl

/-! ## Controls -/

theorem SameControls.refl (s : State) : SameControls s s := ⟨rfl, rfl, rfl, rfl⟩

theorem SameControls.trans {s t u : State} (h : SameControls s t) (k : SameControls t u) : SameControls s u :=
  ⟨k.strict.trans h.strict, k.trace.trans h.trace, k.optab.trans h.optab, k.layout.trans h.layout⟩

theorem busRead_controls {a : Word} {v : Byte} {s t : State} (h : busRead a s = .done v t) : SameControls s t := by
  rcases busRead_frame h with rfl | ⟨_, _, rfl⟩ <;> exact ⟨rfl, rfl, rfl, rfl⟩

theorem busWrite_controls {a : Word} {v : Byte} {s t : State} (h : busWrite a v s = .done () t) : SameControls s t := by
  have hl := busWrite_layout h
  rcases busWrite_frame h with rfl | rfl | ⟨_, _, rfl⟩ <;> exact ⟨rfl, rfl, rfl, hl⟩

/-- Both accesses keep every region's buffer canonical. -/
theorem busWrite_regions_wf {a : Word} {v : Byte} {s t : State} (h : busWrite a v s = .done () t)
    (hs : ∀ r ∈ s.regions, r.wf) : ∀ r ∈ t.regions, r.wf := by
  rcases busWrite_frame h with rfl | rfl | ⟨_, _, rfl⟩
  · exact storeFirst_wf hs a v
  · exact hs
  · exact hs

theorem busRead_regions {a : Word} {v : Byte} {s t : State} (h : busRead a s = .done v t) : t.regions = s.regions := by
  rcases busRead_frame h with rfl | ⟨_, _, rfl⟩ <;> rfl

end Sys2Proof.Machine
end

