-- ==== Sys2Proof/Laws/Registers.lean ====
section
/-! SUPPORT. The bus does not see the registers: an access commutes with every register write (R42, R43). -/

namespace Sys2Proof.Machine

@[simp] theorem busRead_setA (a : Word) (v : Byte) (s : State) :
    busRead a (s.setA v) = (busRead a s).bind fun b t => .done b (t.setA v) := by
  rcases busRead_cases a s with ⟨hr, hd⟩ | ⟨r, hr, hp, hd⟩ | ⟨r, handle, fn, _, hr, hb, hd⟩
  · rw [hd, busRead_unmapped (s := s.setA v) hr]
    rfl
  · rw [hd, busRead_of_peek (v := r.load a) (by rw [State.peek, State.setA_regions, hr]; simp [hp])]
    rfl
  · rw [hd]
    simp only [busRead, State.setA_regions, hr, hb]
    rfl

@[simp] theorem busWrite_setA (a : Word) (b : Byte) (v : Byte) (s : State) :
    busWrite a b (s.setA v) = (busWrite a b s).bind fun _ t => .done () (t.setA v) := by
  unfold busWrite
  rw [State.setA_regions]
  cases resolve s.regions a with
  | none => rfl
  | some r => cases hb : r.backing <;> simp [hb] <;> rfl

@[simp] theorem State.peek_setA (a : Word) (v : Byte) (s : State) : (s.setA v).peek a = s.peek a := rfl
@[simp] theorem State.mapped_setA (a : Word) (v : Byte) (s : State) : (s.setA v).mapped a ↔ s.mapped a := Iff.rfl
@[simp] theorem State.isRamAt_setA (a : Word) (v : Byte) (s : State) : (s.setA v).isRamAt a ↔ s.isRamAt a := Iff.rfl
@[simp] theorem State.layout_setA (v : Byte) (s : State) : (s.setA v).layout = s.layout := rfl

@[simp] theorem busRead_setX (a : Word) (v : Byte) (s : State) :
    busRead a (s.setX v) = (busRead a s).bind fun b t => .done b (t.setX v) := by
  rcases busRead_cases a s with ⟨hr, hd⟩ | ⟨r, hr, hp, hd⟩ | ⟨r, handle, fn, _, hr, hb, hd⟩
  · rw [hd, busRead_unmapped (s := s.setX v) hr]
    rfl
  · rw [hd, busRead_of_peek (v := r.load a) (by rw [State.peek, State.setX_regions, hr]; simp [hp])]
    rfl
  · rw [hd]
    simp only [busRead, State.setX_regions, hr, hb]
    rfl

@[simp] theorem busWrite_setX (a : Word) (b : Byte) (v : Byte) (s : State) :
    busWrite a b (s.setX v) = (busWrite a b s).bind fun _ t => .done () (t.setX v) := by
  unfold busWrite
  rw [State.setX_regions]
  cases resolve s.regions a with
  | none => rfl
  | some r => cases hb : r.backing <;> simp [hb] <;> rfl

@[simp] theorem State.peek_setX (a : Word) (v : Byte) (s : State) : (s.setX v).peek a = s.peek a := rfl
@[simp] theorem State.mapped_setX (a : Word) (v : Byte) (s : State) : (s.setX v).mapped a ↔ s.mapped a := Iff.rfl
@[simp] theorem State.isRamAt_setX (a : Word) (v : Byte) (s : State) : (s.setX v).isRamAt a ↔ s.isRamAt a := Iff.rfl
@[simp] theorem State.layout_setX (v : Byte) (s : State) : (s.setX v).layout = s.layout := rfl

@[simp] theorem busRead_setY (a : Word) (v : Byte) (s : State) :
    busRead a (s.setY v) = (busRead a s).bind fun b t => .done b (t.setY v) := by
  rcases busRead_cases a s with ⟨hr, hd⟩ | ⟨r, hr, hp, hd⟩ | ⟨r, handle, fn, _, hr, hb, hd⟩
  · rw [hd, busRead_unmapped (s := s.setY v) hr]
    rfl
  · rw [hd, busRead_of_peek (v := r.load a) (by rw [State.peek, State.setY_regions, hr]; simp [hp])]
    rfl
  · rw [hd]
    simp only [busRead, State.setY_regions, hr, hb]
    rfl

@[simp] theorem busWrite_setY (a : Word) (b : Byte) (v : Byte) (s : State) :
    busWrite a b (s.setY v) = (busWrite a b s).bind fun _ t => .done () (t.setY v) := by
  unfold busWrite
  rw [State.setY_regions]
  cases resolve s.regions a with
  | none => rfl
  | some r => cases hb : r.backing <;> simp [hb] <;> rfl

@[simp] theorem State.peek_setY (a : Word) (v : Byte) (s : State) : (s.setY v).peek a = s.peek a := rfl
@[simp] theorem State.mapped_setY (a : Word) (v : Byte) (s : State) : (s.setY v).mapped a ↔ s.mapped a := Iff.rfl
@[simp] theorem State.isRamAt_setY (a : Word) (v : Byte) (s : State) : (s.setY v).isRamAt a ↔ s.isRamAt a := Iff.rfl
@[simp] theorem State.layout_setY (v : Byte) (s : State) : (s.setY v).layout = s.layout := rfl

@[simp] theorem busRead_setSp (a : Word) (v : Byte) (s : State) :
    busRead a (s.setSp v) = (busRead a s).bind fun b t => .done b (t.setSp v) := by
  rcases busRead_cases a s with ⟨hr, hd⟩ | ⟨r, hr, hp, hd⟩ | ⟨r, handle, fn, _, hr, hb, hd⟩
  · rw [hd, busRead_unmapped (s := s.setSp v) hr]
    rfl
  · rw [hd, busRead_of_peek (v := r.load a) (by rw [State.peek, State.setSp_regions, hr]; simp [hp])]
    rfl
  · rw [hd]
    simp only [busRead, State.setSp_regions, hr, hb]
    rfl

@[simp] theorem busWrite_setSp (a : Word) (b : Byte) (v : Byte) (s : State) :
    busWrite a b (s.setSp v) = (busWrite a b s).bind fun _ t => .done () (t.setSp v) := by
  unfold busWrite
  rw [State.setSp_regions]
  cases resolve s.regions a with
  | none => rfl
  | some r => cases hb : r.backing <;> simp [hb] <;> rfl

@[simp] theorem State.peek_setSp (a : Word) (v : Byte) (s : State) : (s.setSp v).peek a = s.peek a := rfl
@[simp] theorem State.mapped_setSp (a : Word) (v : Byte) (s : State) : (s.setSp v).mapped a ↔ s.mapped a := Iff.rfl
@[simp] theorem State.isRamAt_setSp (a : Word) (v : Byte) (s : State) : (s.setSp v).isRamAt a ↔ s.isRamAt a := Iff.rfl
@[simp] theorem State.layout_setSp (v : Byte) (s : State) : (s.setSp v).layout = s.layout := rfl

@[simp] theorem busRead_setPc (a : Word) (v : Word) (s : State) :
    busRead a (s.setPc v) = (busRead a s).bind fun b t => .done b (t.setPc v) := by
  rcases busRead_cases a s with ⟨hr, hd⟩ | ⟨r, hr, hp, hd⟩ | ⟨r, handle, fn, _, hr, hb, hd⟩
  · rw [hd, busRead_unmapped (s := s.setPc v) hr]
    rfl
  · rw [hd, busRead_of_peek (v := r.load a) (by rw [State.peek, State.setPc_regions, hr]; simp [hp])]
    rfl
  · rw [hd]
    simp only [busRead, State.setPc_regions, hr, hb]
    rfl

@[simp] theorem busWrite_setPc (a : Word) (b : Byte) (v : Word) (s : State) :
    busWrite a b (s.setPc v) = (busWrite a b s).bind fun _ t => .done () (t.setPc v) := by
  unfold busWrite
  rw [State.setPc_regions]
  cases resolve s.regions a with
  | none => rfl
  | some r => cases hb : r.backing <;> simp [hb] <;> rfl

@[simp] theorem State.peek_setPc (a : Word) (v : Word) (s : State) : (s.setPc v).peek a = s.peek a := rfl
@[simp] theorem State.mapped_setPc (a : Word) (v : Word) (s : State) : (s.setPc v).mapped a ↔ s.mapped a := Iff.rfl
@[simp] theorem State.isRamAt_setPc (a : Word) (v : Word) (s : State) : (s.setPc v).isRamAt a ↔ s.isRamAt a := Iff.rfl
@[simp] theorem State.layout_setPc (v : Word) (s : State) : (s.setPc v).layout = s.layout := rfl

@[simp] theorem busRead_setFlags (a : Word) (v : Flags) (s : State) :
    busRead a (s.setFlags v) = (busRead a s).bind fun b t => .done b (t.setFlags v) := by
  rcases busRead_cases a s with ⟨hr, hd⟩ | ⟨r, hr, hp, hd⟩ | ⟨r, handle, fn, _, hr, hb, hd⟩
  · rw [hd, busRead_unmapped (s := s.setFlags v) hr]
    rfl
  · rw [hd, busRead_of_peek (v := r.load a) (by rw [State.peek, State.setFlags_regions, hr]; simp [hp])]
    rfl
  · rw [hd]
    simp only [busRead, State.setFlags_regions, hr, hb]
    rfl

@[simp] theorem busWrite_setFlags (a : Word) (b : Byte) (v : Flags) (s : State) :
    busWrite a b (s.setFlags v) = (busWrite a b s).bind fun _ t => .done () (t.setFlags v) := by
  unfold busWrite
  rw [State.setFlags_regions]
  cases resolve s.regions a with
  | none => rfl
  | some r => cases hb : r.backing <;> simp [hb] <;> rfl

@[simp] theorem State.peek_setFlags (a : Word) (v : Flags) (s : State) : (s.setFlags v).peek a = s.peek a := rfl
@[simp] theorem State.mapped_setFlags (a : Word) (v : Flags) (s : State) : (s.setFlags v).mapped a ↔ s.mapped a := Iff.rfl
@[simp] theorem State.isRamAt_setFlags (a : Word) (v : Flags) (s : State) : (s.setFlags v).isRamAt a ↔ s.isRamAt a := Iff.rfl
@[simp] theorem State.layout_setFlags (v : Flags) (s : State) : (s.setFlags v).layout = s.layout := rfl

end Sys2Proof.Machine
end

