-- ==== Sys2Proof/Laws/Stack.lean ====
section
/-! SUPPORT. The laws of the stack unit, the strict check, interrupt entry and return (R103, R130 to R136, R206, R213). -/

namespace Sys2Proof.Machine

/-! ## Byte order (R5) -/

theorem joinBytes_toNat (h l : Byte) : (joinBytes h l).toNat = h.toNat * 256 + l.toNat := by
  rw [joinBytes, BitVec.toNat_append, Nat.shiftLeft_eq, Nat.mul_comm, ← Nat.two_pow_add_eq_or_of_lt l.isLt]

theorem hiByte_toNat (w : Word) : (hiByte w).toNat = w.toNat / 256 := by
  have := w.isLt
  simp only [hiByte, BitVec.extractLsb'_toNat, Nat.shiftRight_eq_div_pow]
  omega

theorem loByte_toNat (w : Word) : (loByte w).toNat = w.toNat % 256 := by
  simp only [loByte, BitVec.extractLsb'_toNat, Nat.shiftRight_eq_div_pow]
  omega

/-- A word is its two bytes. -/
@[simp] theorem joinBytes_hi_lo (w : Word) : joinBytes (hiByte w) (loByte w) = w := by
  apply BitVec.eq_of_toNat_eq
  rw [joinBytes_toNat, hiByte_toNat, loByte_toNat]
  omega

@[simp] theorem hiByte_joinBytes (h l : Byte) : hiByte (joinBytes h l) = h := by
  have := l.isLt
  apply BitVec.eq_of_toNat_eq
  rw [hiByte_toNat, joinBytes_toNat]
  omega

@[simp] theorem loByte_joinBytes (h l : Byte) : loByte (joinBytes h l) = l := by
  have := l.isLt
  apply BitVec.eq_of_toNat_eq
  rw [loByte_toNat, joinBytes_toNat]
  omega

@[simp] theorem loByte_zext16 (b : Byte) : loByte (zext16 b) = b := by
  apply BitVec.eq_of_toNat_eq
  have := b.isLt
  rw [loByte_toNat, zext16, BitVec.toNat_setWidth]
  omega

/-! ## Stack addresses (R12) -/

theorem stackAddr_toNat (sp : Byte) : (stackAddr sp).toNat = 0x100 + sp.toNat := by
  have := sp.isLt
  have hb : (0x0100 : Word).toNat = 0x100 := rfl
  simp only [stackAddr, Config.stackBase, zext16, BitVec.toNat_add, BitVec.toNat_setWidth, hb]
  omega

theorem stackAddr_inj {p q : Byte} : stackAddr p = stackAddr q ↔ p = q := by
  constructor
  · intro h
    have := congrArg BitVec.toNat h
    rw [stackAddr_toNat, stackAddr_toNat] at this
    exact BitVec.eq_of_toNat_eq (by omega)
  · rintro rfl; rfl

/-! ## Pushes (R130, R132) -/

/-- A push is a write to the free slot, then SP goes down. -/
theorem pushByte_eq (v : Byte) (s : State) :
    pushByte v s = (busWrite (stackAddr s.sp) v s).bind fun _ t => .done () (t.setSp (s.sp - 1)) := by
  unfold pushByte
  rcases busWrite_cases (stackAddr s.sp) v s with ⟨_, hd⟩ | ⟨_, hd⟩ | ⟨_, _, _, _, hd⟩ | ⟨_, _, _, _, _, _, hd⟩ <;>
    rw [hd] <;> rfl

theorem pushByte_ram {v : Byte} {s : State} (h : s.isRamAt (stackAddr s.sp)) :
    pushByte v s = .done () ((s.setRegions (storeFirst s.regions (stackAddr s.sp) v)).setSp (s.sp - 1)) := by
  rw [pushByte_eq, busWrite_ram h, Bus.bind_done]

theorem pushByte_mapped {v : Byte} {s : State} (h : s.mapped (stackAddr s.sp)) :
    ∃ u, busWrite (stackAddr s.sp) v s = .done () u ∧ pushByte v s = .done () (u.setSp (s.sp - 1)) := by
  obtain ⟨u, hu⟩ := busWrite_mapped (v := v) h
  exact ⟨u, hu, by rw [pushByte_eq, hu, Bus.bind_done]⟩

theorem pushByte_unmapped {v : Byte} {s : State} (h : ¬s.mapped (stackAddr s.sp)) :
    pushByte v s = .miss (stackAddr s.sp) := by
  rw [pushByte_eq, busWrite_unmapped (by simpa [State.mapped] using h), Bus.bind_miss]

theorem pushByte_sp {v : Byte} {s t : State} (h : pushByte v s = .done () t) : t.sp = s.sp - 1 := by
  rw [pushByte_eq] at h
  obtain ⟨_, u, _, hk⟩ := Bus.bind_eq_done.mp h
  simp only [Bus.done.injEq, true_and] at hk
  rw [← hk, State.setSp_sp]

theorem pushByte_controls {v : Byte} {s t : State} (h : pushByte v s = .done () t) : SameControls s t := by
  rw [pushByte_eq] at h
  obtain ⟨_, u, hu, hk⟩ := Bus.bind_eq_done.mp h
  simp only [Bus.done.injEq, true_and] at hk
  have := busWrite_controls hu
  rw [← hk]
  exact ⟨this.strict, this.trace, this.optab, this.layout⟩

theorem pushByte_peek_other {v : Byte} {s t : State} {a : Word} (h : pushByte v s = .done () t)
    (ha : a ≠ stackAddr s.sp) : t.peek a = s.peek a := by
  rw [pushByte_eq] at h
  obtain ⟨_, u, hu, hk⟩ := Bus.bind_eq_done.mp h
  simp only [Bus.done.injEq, true_and] at hk
  rw [← hk, State.peek_setSp]
  exact busWrite_peek_other hu (Ne.symm ha)

theorem pushByte_mapped_after {v : Byte} {s t : State} {a : Word} (h : pushByte v s = .done () t) :
    t.mapped a ↔ s.mapped a := by
  rw [pushByte_eq] at h
  obtain ⟨_, u, hu, hk⟩ := Bus.bind_eq_done.mp h
  simp only [Bus.done.injEq, true_and] at hk
  rw [← hk, State.mapped_setSp]
  exact busWrite_mapped_after hu

theorem pushByte_regions_wf {v : Byte} {s t : State} (h : pushByte v s = .done () t) (hs : ∀ r ∈ s.regions, r.wf) :
    ∀ r ∈ t.regions, r.wf := by
  rw [pushByte_eq] at h
  obtain ⟨_, u, hu, hk⟩ := Bus.bind_eq_done.mp h
  simp only [Bus.done.injEq, true_and] at hk
  rw [← hk, State.setSp_regions]
  exact busWrite_regions_wf hu hs

/-! ## Pulls (R131, R133) -/

theorem pullByte_of_peek {v : Byte} {s : State} (h : s.peek (stackAddr (s.sp + 1)) = some v) :
    pullByte s = .done v (s.setSp (s.sp + 1)) := by
  unfold pullByte
  exact busRead_of_peek (by simpa using h)

theorem pullByte_eq (s : State) :
    pullByte s = (busRead (stackAddr (s.sp + 1)) s).bind fun v t => .done v (t.setSp (s.sp + 1)) := by
  unfold pullByte
  rw [busRead_setSp]

theorem pullByte_mapped {s : State} (h : s.mapped (stackAddr (s.sp + 1))) :
    ∃ v u, busRead (stackAddr (s.sp + 1)) s = .done v u ∧ pullByte s = .done v (u.setSp (s.sp + 1)) := by
  obtain ⟨v, u, hu⟩ := busRead_mapped h
  exact ⟨v, u, hu, by rw [pullByte_eq, hu, Bus.bind_done]⟩

theorem pullByte_unmapped {s : State} (h : ¬s.mapped (stackAddr (s.sp + 1))) :
    pullByte s = .miss (stackAddr (s.sp + 1)) := by
  rw [pullByte_eq, busRead_unmapped (by simpa [State.mapped] using h), Bus.bind_miss]

/-- A pull moves SP and, on an I/O region, adds to the history: nothing else. -/
theorem pullByte_frame {v : Byte} {s t : State} (h : pullByte s = .done v t) :
    t = (s.setEvents t.events).setSp (s.sp + 1) := by
  rw [pullByte_eq] at h
  obtain ⟨_, u, hu, hk⟩ := Bus.bind_eq_done.mp h
  simp only [Bus.done.injEq] at hk
  have := busRead_events hu
  rw [← hk.2]
  rw [State.setSp_events, ← this]

theorem pullByte_controls {v : Byte} {s t : State} (h : pullByte s = .done v t) : SameControls s t := by
  rw [pullByte_frame h]
  exact ⟨rfl, rfl, rfl, rfl⟩

/-! ## The strict check (R103) -/

@[simp] theorem stackCheck_zero (s : State) : stackCheck 0 s = none := by simp [stackCheck]

/-- Everything the strict check can say. -/
theorem stackCheck_cases (h : Int) (s : State) :
    (stackCheck h s = none ∧ roomFor h s) ∨
    (stackCheck h s = some .stackOverflow ∧ s.strict = true ∧ 0 < h ∧ (s.sp.toNat : Int) < h) ∨
    (stackCheck h s = some .stackUnderflow ∧ s.strict = true ∧ h < 0 ∧ (255 - s.sp.toNat : Int) < -h) := by
  have hsp := s.sp.isLt
  unfold stackCheck roomFor State.stackFree State.stackUsed
  by_cases hs : s.strict = true
  · by_cases h0 : h = 0
    · left
      subst h0
      simp
    · rw [if_pos ⟨hs, h0⟩]
      by_cases hp : 0 < h ∧ (s.sp.toNat : Int) < h
      · rw [if_pos hp]
        exact .inr (.inl ⟨rfl, hs, hp⟩)
      · rw [if_neg hp]
        by_cases hn : h < 0 ∧ ((255 - s.sp.toNat : Nat) : Int) < -h
        · rw [if_pos hn]
          exact .inr (.inr ⟨rfl, hs, hn.1, by omega⟩)
        · rw [if_neg hn]
          exact .inl ⟨rfl, fun _ => by omega⟩
  · left
    simp [hs]

/-- The check passes exactly when the declared headroom is there. -/
theorem stackCheck_eq_none {h : Int} {s : State} : stackCheck h s = none ↔ roomFor h s := by
  have hsp := s.sp.isLt
  rcases stackCheck_cases h s with ⟨hc, hr⟩ | ⟨hc, hs, hp, hl⟩ | ⟨hc, hs, hp, hl⟩
  · exact ⟨fun _ => hr, fun _ => hc⟩
  · rw [hc]
    exact ⟨fun h => by simp at h, fun h => by have := (h hs).1 hp; omega⟩
  · rw [hc]
    exact ⟨fun h => by simp at h, fun h => by have := (h hs).2 hp; omega⟩

/-- The check reads strict and SP only. -/
theorem stackCheck_congr {h : Int} {s t : State} (h1 : t.strict = s.strict) (h2 : t.sp = s.sp) :
    stackCheck h t = stackCheck h s := by
  unfold stackCheck State.stackFree State.stackUsed
  rw [h1, h2]

/-! ## Vectors and interrupts (R53, R206) -/

theorem readVector_of_peek {a : Word} {s : State} {l h : Byte} (hl : s.peek a = some l)
    (hh : s.peek (a + 1) = some h) : readVector a s = .done (joinBytes h l) s := by
  unfold readVector
  rw [busRead_of_peek hl, Bus.bind_done, busRead_of_peek hh, Bus.bind_done]

/-- Everything an interrupt can do: it is refused for want of free stack in strict mode, or it is let in. -/
theorem interrupt_cases (vector : Word) (s : State) :
    ((s.strict = true ∧ s.sp.toNat < 3) ∧ interrupt vector s = .fault (.raised .stackOverflow s)) ∨
    (¬(s.strict = true ∧ s.sp.toNat < 3) ∧ interrupt vector s = (enterInterrupt vector s).toOutcome) := by
  by_cases h : s.strict = true ∧ s.sp.toNat < 3
  · exact .inl ⟨h, if_pos h⟩
  · exact .inr ⟨h, if_neg h⟩

end Sys2Proof.Machine
end

