-- ==== Sys2Proof/Laws/Later.lean ====
section
/-! SUPPORT. What anything made of bus accesses and register writes can do, said once (R50, R51, R142): the controls, the
table, the layout and which addresses are covered stay, the I/O history only grows, canonical buffers stay canonical; and on
a fully mapped platform it never misses. Interrupt entry, the return, `reset` and every handler's program are of this kind. -/

namespace Sys2Proof.Machine

/-- `t` comes from `s` by bus accesses and register writes. -/
structure Later (s t : State) : Prop where
  controls : SameControls s t
  events : ∃ new, t.events = new ++ s.events
  mapped : ∀ a, t.mapped a ↔ s.mapped a
  regions_wf : (∀ r ∈ s.regions, r.wf) → ∀ r ∈ t.regions, r.wf

theorem Later.refl (s : State) : Later s s := ⟨SameControls.refl s, ⟨[], rfl⟩, fun _ => Iff.rfl, fun h => h⟩

theorem Later.trans {s t u : State} (h : Later s t) (k : Later t u) : Later s u where
  controls := h.controls.trans k.controls
  events := by
    obtain ⟨n, hn⟩ := h.events
    obtain ⟨m, hm⟩ := k.events
    exact ⟨m ++ n, by rw [hm, hn, List.append_assoc]⟩
  mapped a := (k.mapped a).trans (h.mapped a)
  regions_wf w := k.regions_wf (h.regions_wf w)

theorem Later.fullyMapped {s t : State} (h : Later s t) (hm : s.fullyMapped) : t.fullyMapped :=
  fun a => (h.mapped a).mpr (hm a)

/-- A state that differs in the registers and flags only. -/
theorem Later.of_registers {s t : State} (h1 : t.strict = s.strict) (h2 : t.trace = s.trace) (h3 : t.optab = s.optab)
    (h4 : t.regions = s.regions) (h5 : t.events = s.events) : Later s t where
  controls := ⟨h1, h2, h3, by rw [State.layout, h4, State.layout]⟩
  events := ⟨[], by simp [h5]⟩
  mapped a := by simp [State.mapped, h4]
  regions_wf h := by rw [h4]; exact h

theorem busRead_later {a : Word} {v : Byte} {s t : State} (h : busRead a s = .done v t) : Later s t := by
  refine ⟨busRead_controls h, ?_, fun b => by simp [State.mapped, busRead_regions h], fun w => by
    rw [busRead_regions h]; exact w⟩
  rcases busRead_frame h with rfl | ⟨_, _, rfl⟩
  · exact ⟨[], rfl⟩
  · exact ⟨[_], rfl⟩

theorem busWrite_later {a : Word} {v : Byte} {s t : State} (h : busWrite a v s = .done () t) : Later s t := by
  refine ⟨busWrite_controls h, ?_, fun b => busWrite_mapped_after h, busWrite_regions_wf h⟩
  rcases busWrite_frame h with rfl | rfl | ⟨_, _, rfl⟩
  · exact ⟨[], rfl⟩
  · exact ⟨[], rfl⟩
  · exact ⟨[_], rfl⟩

/-- The result of something made of bus accesses and register writes from a state. -/
structure Bus.From {α : Type} (r : Bus α) (s : State) : Prop where
  later : ∀ {v t}, r = .done v t → Later s t
  completes : s.fullyMapped → ∃ v t, r = .done v t

theorem Bus.From.done {α : Type} {v : α} {s t : State} (h : Later s t) : Bus.From (.done v t) s where
  later e := by
    simp only [Bus.done.injEq] at e
    rw [← e.2]; exact h
  completes _ := ⟨v, t, rfl⟩

theorem Bus.From.bind {α β : Type} {r : Bus α} {k : α → State → Bus β} {s : State} (h : r.From s)
    (hk : ∀ v t, Later s t → (k v t).From t) : (r.bind k).From s where
  later e := by
    obtain ⟨u, s1, h1, h2⟩ := Bus.bind_eq_done.mp e
    have g := h.later h1
    exact g.trans ((hk u s1 g).later h2)
  completes hm := by
    obtain ⟨u, s1, h1⟩ := h.completes hm
    have g := h.later h1
    obtain ⟨v, t, h2⟩ := (hk u s1 g).completes (g.fullyMapped hm)
    exact ⟨v, t, by rw [h1, Bus.bind_done, h2]⟩

/-- First registers, then accesses. -/
theorem Bus.From.after {α : Type} {r : Bus α} {s t : State} (g : Later s t) (h : r.From t) : r.From s where
  later e := g.trans (h.later e)
  completes hm := h.completes (g.fullyMapped hm)

theorem busRead_from (a : Word) (s : State) : (busRead a s).From s := ⟨busRead_later, fun hm => busRead_mapped (hm a)⟩

theorem busWrite_from (a : Word) (v : Byte) (s : State) : (busWrite a v s).From s where
  later := busWrite_later
  completes hm := by
    obtain ⟨t, h⟩ := busWrite_mapped (hm a) (v := v)
    exact ⟨(), t, h⟩

theorem readVector_from (a : Word) (s : State) : (readVector a s).From s :=
  (busRead_from _ _).bind fun _ _ _ => (busRead_from _ _).bind fun _ _ _ => .done (.refl _)

theorem pushByte_from (v : Byte) (s : State) : (pushByte v s).From s :=
  (busWrite_from _ _ _).bind fun _ _ _ => .done (.of_registers rfl rfl rfl rfl rfl)

theorem pullByte_from (s : State) : (pullByte s).From s :=
  .after (t := s.setSp (s.sp + 1)) (.of_registers rfl rfl rfl rfl rfl) (busRead_from _ _)

theorem pushWord_from (w : Word) (s : State) : (pushWord w s).From s :=
  (pushByte_from _ _).bind fun _ _ _ => pushByte_from _ _

theorem pullWord_from (s : State) : (pullWord s).From s :=
  (pullByte_from _).bind fun _ _ _ => (pullByte_from _).bind fun _ _ _ => .done (.refl _)

theorem enterInterrupt_from (vector : Word) (s : State) : (enterInterrupt vector s).From s :=
  (pushWord_from _ _).bind fun _ _ _ => (pushByte_from _ _).bind fun _ s2 _ =>
    .after (t := s2.setFlag .i true) (.of_registers rfl rfl rfl rfl rfl)
      ((readVector_from _ _).bind fun _ _ _ => .done (.of_registers rfl rfl rfl rfl rfl))

theorem returnFromInterrupt_from (s : State) : (returnFromInterrupt s).From s :=
  (pullByte_from _).bind fun status s1 _ =>
    .after (t := s1.setFlags (unpack status)) (.of_registers rfl rfl rfl rfl rfl)
      ((pullWord_from _).bind fun _ _ _ => .done (.of_registers rfl rfl rfl rfl rfl))

theorem resetCore_from (s : State) : (resetCore s).From s :=
  (readVector_from _ _).bind fun _ _ _ => .done (.of_registers rfl rfl rfl rfl rfl)

theorem setReg_later (r : Reg) (v : Byte) (s : State) : Later s (s.setReg r v) := by
  cases r <;> exact .of_registers rfl rfl rfl rfl rfl

/-- Everything a handler's program can do to the state beside the registers. -/
theorem runProg_from (operand : Word) (p : Prog) : ∀ (l : Locals) (s : State), (runProg operand p l s).From s := by
  induction p with
  | skip => exact fun _ _ => .done (.refl _)
  | seq p q ihp ihq => exact fun l s => (ihp l s).bind fun l1 s1 _ => ihq l1 s1
  | setTmp k e => exact fun _ _ => .done (.refl _)
  | setReg r e => exact fun _ _ => .done (setReg_later _ _ _)
  | setPc e => exact fun _ _ => .done (.of_registers rfl rfl rfl rfl rfl)
  | setFlag f e => exact fun _ _ => .done (.of_registers rfl rfl rfl rfl rfl)
  | unpack e => exact fun _ _ => .done (.of_registers rfl rfl rfl rfl rfl)
  | busRead k e => exact fun _ _ => (busRead_from _ _).bind fun _ _ _ => .done (.refl _)
  | busWrite e v => exact fun _ _ => (busWrite_from _ _ _).bind fun _ _ _ => .done (.refl _)
  | pushByte v => exact fun _ _ => (pushByte_from _ _).bind fun _ _ _ => .done (.refl _)
  | pullByte k => exact fun _ _ => (pullByte_from _).bind fun _ _ _ => .done (.refl _)
  | pushWord v => exact fun _ _ => (pushWord_from _ _).bind fun _ _ _ => .done (.refl _)
  | pullWord k => exact fun _ _ => (pullWord_from _).bind fun _ _ _ => .done (.refl _)
  | cond e p q ihp ihq =>
    intro l s
    unfold runProg
    split
    · exact ihp l s
    · exact ihq l s

/-- Nothing made of bus accesses raises an error of the CORE (R200). -/
theorem Bus.toOutcome_ne_raised {α : Type} (r : Bus α) (e : CoreError) (t : State) :
    r.toOutcome ≠ .fault (.raised e t) := by
  cases r <;> simp

end Sys2Proof.Machine
end

