-- ==== Sys2Proof/Laws/Fetch.lean ====
section
/-! SUPPORT. The laws of the table, of decoding and of fetching (R81 to R86, R100 lines 1 to 5). -/

namespace Sys2Proof

open Sys2Proof.Machine (joinBytes)

/-- Under a well-formed table every entry is well-formed (R81). -/
theorem OpTab.entry_wf {t : OpTab} (h : t.wf = true) (op : Byte) : (t.entry op).wf = true := by
  have hall : ∀ e ∈ t, (t.entry e.1).wf = true := by simpa [OpTab.wf, List.all_eq_true] using h
  have key : ∀ l : OpTab, (∃ e ∈ l, e.1 = op) ∨ l.entry op = Descriptor.absent := by
    intro l
    induction l with
    | nil => exact .inr rfl
    | cons e l ih =>
      obtain ⟨k, d⟩ := e
      by_cases hk : k = op
      · exact .inl ⟨(k, d), by simp, hk⟩
      · rcases ih with ⟨x, hx, hxe⟩ | ih
        · exact .inl ⟨x, by simp [hx], hxe⟩
        · exact .inr (by simp [OpTab.entry, hk, ih])
  rcases key t with ⟨e, he, rfl⟩ | h
  · exact hall e he
  · rw [h]; rfl

/-- A handler's kind matches its length (R81). -/
theorem OpTab.entry_length {t : OpTab} (h : t.wf = true) {op : Byte} {hd : Handler}
    (hh : (t.entry op).handler = some hd) : (t.entry op).length = hd.length := by
  have := OpTab.entry_wf h op
  simp only [Descriptor.wf, hh, Bool.and_eq_true, decide_eq_true_eq] at this
  exact this.1.1

theorem decode_absent {t : OpTab} {op : Byte} (hh : (t.entry op).handler = none) (bs : List Byte) :
    decode t (op :: bs) = .ok (.illegal op, bs) := by
  unfold decode
  simp only [hh]

theorem decode_h0 {t : OpTab} {op : Byte} {p : Prog} (hh : (t.entry op).handler = some (.h0 p))
    (hl : (t.entry op).length = 1) (bs : List Byte) :
    decode t (op :: bs) = .ok (nameRow (t.entry op) op 0 0 (.f1 op), bs) := by
  unfold decode
  simp only [hh]
  exact if_pos hl

theorem decode_h1 {t : OpTab} {op : Byte} {p : Prog} (hh : (t.entry op).handler = some (.h1 p))
    (hl : (t.entry op).length = 2) (b : Byte) (bs : List Byte) :
    decode t (op :: b :: bs) = .ok (nameRow (t.entry op) op b 0 (.f2 op b), bs) := by
  unfold decode
  simp only [hh]
  exact if_pos hl

theorem decode_h2 {t : OpTab} {op : Byte} {p : Prog} (hh : (t.entry op).handler = some (.h2 p))
    (hl : (t.entry op).length = 3) (l h : Byte) (bs : List Byte) :
    decode t (op :: l :: h :: bs) = .ok (nameRow (t.entry op) op 0 (joinBytes h l) (.f3 op (joinBytes h l)), bs) := by
  unfold decode
  simp only [hh]
  exact if_pos hl

namespace Machine

theorem readBytes_one (a : Word) (s : State) : readBytes 1 a s = (busRead a s).bind fun b t => .done [b] t := by
  simp only [readBytes, Bus.bind_done]

theorem readBytes_two (a : Word) (s : State) :
    readBytes 2 a s = (busRead a s).bind fun b t => (busRead (a + 1) t).bind fun c u => .done [b, c] u := by
  simp only [readBytes, Bus.bind_assoc, Bus.bind_done]

theorem readBytes_from (n : Nat) : ∀ (a : Word) (s : State), (readBytes n a s).From s := by
  induction n with
  | zero => exact fun _ _ => .done (.refl _)
  | succ n ih => exact fun _ _ => (busRead_from _ _).bind fun _ _ _ => (ih _ _).bind fun _ _ _ => .done (.refl _)

/-- Fetching, with the table and the strict check read from the state before it: neither is changed by a read. -/
theorem fetch_eq (s : State) : fetch s =
    match busRead s.pc s with
    | .miss a => .stop (.busMiss a)
    | .done op s1 =>
      match (s.optab.entry op).handler with
      | none => .instr (.illegal op) s1
      | some _ =>
        match stackCheck (s.optab.entry op).headroom s with
        | some e => .stop (.raised e s1)
        | none =>
          match readBytes ((s.optab.entry op).length - 1) (codeAddr s.pc 1) s1 with
          | .miss a => .stop (.busMiss a)
          | .done bs s2 =>
            match decode s.optab (op :: bs) with
            | .ok (i, _) => .instr i s2
            | .error e => .rejected e := by
  unfold fetch
  cases h : busRead s.pc s with
  | miss a => rfl
  | done op s1 =>
    have hc := busRead_controls h
    have hsp : s1.sp = s.sp := by rw [busRead_events h]; rfl
    simp only [hc.optab, stackCheck_congr hc.strict hsp]
    cases (s.optab.entry op).handler with
    | none => rfl
    | some hd =>
      simp only
      cases stackCheck (s.optab.entry op).headroom s with
      | some e => rfl
      | none =>
        simp only
        cases hr : readBytes ((s.optab.entry op).length - 1) (codeAddr s.pc 1) s1 with
        | miss a => rfl
        | done bs s2 =>
          have ho : s2.optab = s.optab := by rw [((readBytes_from _ _ _).later hr).controls.optab, hc.optab]
          cases hdec : decode s2.optab (op :: bs) <;> rw [ho] at hdec <;> simp only [ho, hdec]

end Machine

end Sys2Proof
end

