-- ==== Sys2Proof/Laws/Instr.lean ====
section
/-! SUPPORT. What running an instruction can do (R100 lines 3 to 6), said once for every meaning. -/

namespace Sys2Proof.Machine

theorem codeAddr_eq (pc : Word) (k : Nat) : codeAddr pc k = pc + BitVec.ofNat 16 k := rfl

/-- Everything running an instruction can do: the strict check stops it, or its effect runs with PC advanced. -/
theorem runInstr_cases (length : Nat) (headroom : Int) (effect : State → Bus Unit) (s : State) :
    (∃ e, stackCheck headroom s = some e ∧ runInstr length headroom effect s = .fault (.raised e s)) ∨
    (roomFor headroom s ∧
      runInstr length headroom effect s = (effect (s.setPc (codeAddr s.pc length))).toOutcome) := by
  unfold runInstr
  cases h : stackCheck headroom s with
  | some e => exact .inl ⟨e, rfl, rfl⟩
  | none => exact .inr ⟨stackCheck_eq_none.mp h, rfl⟩

theorem runInstr_room {length : Nat} {headroom : Int} {effect : State → Bus Unit} {s : State}
    (h : roomFor headroom s) :
    runInstr length headroom effect s = (effect (s.setPc (codeAddr s.pc length))).toOutcome := by
  unfold runInstr
  rw [stackCheck_eq_none.mpr h]

theorem roomFor_zero (s : State) : roomFor 0 s := stackCheck_eq_none.mp (stackCheck_zero s)

/-- With no headroom declared the strict check never stops an instruction. -/
@[simp] theorem runInstr_zero (length : Nat) (effect : State → Bus Unit) (s : State) :
    runInstr length 0 effect s = (effect (s.setPc (codeAddr s.pc length))).toOutcome :=
  runInstr_room (roomFor_zero s)

theorem runInstr_next {length : Nat} {headroom : Int} {effect : State → Bus Unit} {s t : State}
    (h : runInstr length headroom effect s = .next t) :
    roomFor headroom s ∧ effect (s.setPc (codeAddr s.pc length)) = .done () t := by
  rcases runInstr_cases length headroom effect s with ⟨e, _, hd⟩ | ⟨hr, hd⟩
  · rw [hd] at h
    simp at h
  · rw [hd] at h
    obtain ⟨_, hv⟩ := Bus.toOutcome_eq_next.mp h
    exact ⟨hr, hv⟩

theorem runInstr_ne_refused (length : Nat) (headroom : Int) (effect : State → Bus Unit) (s : State) (r : Refusal) :
    runInstr length headroom effect s ≠ .refused r := by
  rcases runInstr_cases length headroom effect s with ⟨e, _, hd⟩ | ⟨_, hd⟩
  · rw [hd]
    simp
  · rw [hd]
    exact Bus.toOutcome_ne_refused _ _

/-- Everything a generic row can do (R102, R105 to R107). -/
theorem runEntry_cases (n : Nat) (op : Byte) (w : Word) (s : State) :
    ((s.optab.entry op).handler = none ∧ runEntry n op w s = .fault (.raised .unimplementedInstruction s)) ∨
    ∃ h, (s.optab.entry op).handler = some h ∧
      (((s.optab.entry op).length = n ∧ h.length = n ∧
          runEntry n op w s = runInstr n (s.optab.entry op).headroom (invoke h w) s) ∨
       (¬((s.optab.entry op).length = n ∧ h.length = n) ∧ runEntry n op w s = .refused (.formatMismatch op))) := by
  unfold runEntry
  cases hh : (s.optab.entry op).handler with
  | none => exact .inl ⟨rfl, by simp [hh, raise]⟩
  | some h =>
    refine .inr ⟨h, rfl, ?_⟩
    by_cases hc : (s.optab.entry op).length = n ∧ h.length = n
    · exact .inl ⟨hc.1, hc.2, by simp [hh, hc]⟩
    · exact .inr ⟨hc, by simp [hh, hc]⟩

end Sys2Proof.Machine
end

