-- ==== Sys2Proof/Laws/Demo.lean ====
section
/-! SUPPORT. The rows of `DEMO` in one form: each runs, with its length and declared headroom, one effect; and the handler
program of its table entry has that same effect. -/

namespace Sys2Proof.Machine

/-! ## The instructions (R150 to R176) -/

/-- The own effect of a `DEMO` instruction, PC already advanced; nothing for the other constructors. -/
def demoEffect : Instr → State → Bus Unit
  | .ldaImm b, t => .done () (loadA b t)
  | .ldxImm b, t => .done () (loadX b t)
  | .ldyImm b, t => .done () (loadY b t)
  | .ldaZp b, t => loadFrom (zeroPageAddr b) t
  | .ldaAbs w, t => loadFrom w t
  | .staZp b, t => storeTo (zeroPageAddr b) t
  | .staAbs w, t => storeTo w t
  | .tax, t => .done () (loadX t.a t)
  | .txs, t => .done () (t.setSp t.x)
  | .tsx, t => .done () (loadX t.sp t)
  | .inx, t => .done () (loadX (t.x + 1) t)
  | .dex, t => .done () (loadX (t.x - 1) t)
  | .clc, t => .done () (t.setFlag .c false)
  | .sec, t => .done () (t.setFlag .c true)
  | .cli, t => .done () (t.setFlag .i false)
  | .sei, t => .done () (t.setFlag .i true)
  | .pha, t => pushByte t.a t
  | .pla, t => (pullByte t).bind fun v u => .done () (loadA v u)
  | .php, t => pushByte (pack t.flags) t
  | .plp, t => (pullByte t).bind fun v u => .done () (u.setFlags (unpack v))
  | .jmpAbs w, t => .done () (t.setPc w)
  | .jsrAbs w, t => (pushWord (t.pc - 1) t).bind fun _ u => .done () (u.setPc w)
  | .rts, t => (pullWord t).bind fun w u => .done () (u.setPc (w + 1))
  | .rti, t => returnFromInterrupt t
  | .bneRel b, t => .done () (branchIf (!t.flags.z) b t)
  | .beqRel b, t => .done () (branchIf t.flags.z b t)
  | .nop, t | .f1 _, t | .f2 _ _, t | .f3 _ _, t | .illegal _, t => .done () t

/-- Every row of `DEMO` is its effect, run with its length and headroom. -/
theorem exec_demo {i : Instr} (h : isDemoRow i = true) (s : State) :
    exec i s = runInstr i.length (demoHeadroom i) (demoEffect i) s := by
  cases i <;> first | rfl | simp [isDemoRow] at h

/-- What an effect of `DEMO` does to the state beside the registers. -/
theorem demoEffect_from (i : Instr) (t : State) : (demoEffect i t).From t := by
  cases i
  case ldaZp b => exact (busRead_from _ _).bind fun _ _ _ => .done (.of_registers rfl rfl rfl rfl rfl)
  case ldaAbs w => exact (busRead_from _ _).bind fun _ _ _ => .done (.of_registers rfl rfl rfl rfl rfl)
  case staZp b => exact busWrite_from _ _ _
  case staAbs w => exact busWrite_from _ _ _
  case pha => exact pushByte_from _ _
  case php => exact pushByte_from _ _
  case pla => exact (pullByte_from _).bind fun _ _ _ => .done (.of_registers rfl rfl rfl rfl rfl)
  case plp => exact (pullByte_from _).bind fun _ _ _ => .done (.of_registers rfl rfl rfl rfl rfl)
  case jsrAbs w => exact (pushWord_from _ _).bind fun _ _ _ => .done (.of_registers rfl rfl rfl rfl rfl)
  case rts => exact (pullWord_from _).bind fun _ _ _ => .done (.of_registers rfl rfl rfl rfl rfl)
  case rti => exact returnFromInterrupt_from _
  case bneRel b =>
    refine .done ?_
    unfold branchIf
    split <;> exact .of_registers rfl rfl rfl rfl rfl
  case beqRel b =>
    refine .done ?_
    unfold branchIf
    split <;> exact .of_registers rfl rfl rfl rfl rfl
  all_goals exact .done (.of_registers rfl rfl rfl rfl rfl)

/-! ## The handler programs of `DEMO` -/

theorem isZero_zext : ∀ v : Byte, (boolWord (zext16 v == 0) != 0) = (v == 0) := by decide

theorem bit7_zext : ∀ v : Byte, ((zext16 v &&& 0x80) != 0) = v.getLsbD 7 := by decide

theorem loByte_zext_inc : ∀ v : Byte, loByte (zext16 v + 1) = v + 1 := by decide

theorem loByte_zext_dec : ∀ v : Byte, loByte (zext16 v - 1) = v - 1 := by decide

theorem boolWord_ne_zero (b : Bool) : (boolWord b != 0) = b := by cases b <;> rfl

theorem Locals.set_same (l : Locals) (k : Nat) (v : Word) : l.set k v k = v := by simp [Locals.set]

/-- `SetZN` of a register, as a program. -/
theorem runProg_setZN (operand : Word) (l : Locals) (s : State) (r : Reg) :
    runProg operand (Demo.setZN (.reg r)) l s = .done l (s.setZN (s.getReg r)) := by
  simp only [Demo.setZN, runProg, evalExpr, Bus.bind_done, isZero_zext]
  rw [show (State.setFlag Flag.z (s.getReg r == 0) s).getReg r = s.getReg r by cases r <;> rfl, bit7_zext]
  rfl

/-- A load of a register with `SetZN`, as a program. -/
theorem runProg_load (operand : Word) (l : Locals) (s : State) (r : Reg) (e : Expr) :
    runProg operand (Demo.load r e) l s =
      .done l ((s.setReg r (loByte (evalExpr operand l s e))).setZN (loByte (evalExpr operand l s e))) := by
  simp only [Demo.load, runProg, Bus.bind_done, runProg_setZN]
  congr 2
  cases r <;> rfl

/-- The opcode bytes with a handler in `DEMO` are the rows of the opcode table. -/
theorem demo_opcodes : ∀ op : Byte, (Demo.table.entry op).handler.isSome = true → op ∈ demoRows.map Prod.fst := by decide

theorem isDemo_entry {op : Byte} {d : Descriptor} (h : d.isDemo op = true) :
    (Demo.table.entry op).handler.isSome = true ∧ d.length = (Demo.table.entry op).length ∧
      d.headroom = (Demo.table.entry op).headroom ∧ d.handler = (Demo.table.entry op).handler := by
  simpa [Descriptor.isDemo, Descriptor.same, and_assoc] using h

/-- The instruction an opcode byte with a handler makes, from the operand byte and word (R105 to R107). -/
def entryInstr (d : Descriptor) (op : Byte) (h : Handler) (b : Byte) (w : Word) : Instr :=
  match h with
  | .h0 _ => nameRow d op 0 0 (.f1 op)
  | .h1 _ => nameRow d op b 0 (.f2 op b)
  | .h2 _ => nameRow d op 0 w (.f3 op w)

/-- The operand such a handler is given (R140). -/
def entryOperand (h : Handler) (b : Byte) (w : Word) : Word :=
  match h with
  | .h0 _ => 0
  | .h1 _ => zext16 b
  | .h2 _ => w

theorem runInstr_congr {n : Nat} {k : Int} {e f : State → Bus Unit} (h : ∀ t, e t = f t) (s : State) :
    runInstr n k e s = runInstr n k f s := by
  rw [show e = f from funext h]

/-- Whichever constructor stands for it, an instruction of the table does what the table's handler does. -/
theorem exec_entryInstr {s : State} {op : Byte} {d : Descriptor} {h : Handler} (hd : s.optab.entry op = d)
    (hh : d.handler = some h) (hl : d.length = h.length) (b : Byte) (w : Word) :
    exec (entryInstr d op h b w) s = runInstr h.length d.headroom (invoke h (entryOperand h b w)) s := by
  by_cases hdemo : d.isDemo op = true
  · obtain ⟨h1, h2, h3, h4⟩ := isDemo_entry hdemo
    have hop := demo_opcodes op h1
    rw [hh] at h4
    simp only [demoRows, List.map_cons, List.map_nil, List.mem_cons, List.not_mem_nil, or_false] at hop
    rcases hop with rfl | rfl | rfl | rfl | rfl | rfl | rfl | rfl | rfl | rfl | rfl | rfl | rfl | rfl | rfl | rfl |
      rfl | rfl | rfl | rfl | rfl | rfl | rfl | rfl | rfl | rfl | rfl
    all_goals
      (obtain rfl := Option.some.inj h4.symm.symm
       rw [h3]
       simp only [entryInstr, nameRow, hdemo, if_true, entryOperand]
       rw [show findRow demoRows _ = some _ from rfl]
       dsimp only
       rw [exec_demo rfl]
       refine runInstr_congr (fun t => ?_) _
       simp only [demoEffect, invoke, Handler.prog, Demo.loadMem, Demo.storeMem, Demo.branch, runProg, runProg_load,
         evalExpr, Bus.bind_done, Bus.bind_assoc, loByte_zext16, loByte_zext_inc, loByte_zext_dec, boolWord_ne_zero])
    all_goals try rfl
    all_goals try simp only [Locals.set_same, loByte_zext16, loadFrom, storeTo, Bus.bind_unit, returnFromInterrupt]
    all_goals try rfl
    all_goals
      (simp only [show t.flags.get Flag.z = t.flags.z from rfl]
       cases t.flags.z <;> rfl)
  · cases h <;> simp only [entryInstr, nameRow, hdemo, if_false, Bool.false_eq_true, entryOperand, exec, execF1, execF2,
      execF3, Handler.length]
    all_goals
      unfold runEntry
      simp only [hd, hh]
      rw [if_pos ⟨hl, rfl⟩]

end Sys2Proof.Machine
end

