-- ==== Sys2Proof/Laws/PerInstr.lean ====
section
/-! SUPPORT. Statements about every instruction as syntax, one lemma per constructor. -/

namespace Sys2Proof.Laws.EncodedLength

/-- An instruction is 1, 2 or 3 bytes long and starts with its opcode byte (R82). -/
def Statement (i : Instr) : Prop :=
  (encode i).length = i.length ∧ 1 ≤ i.length ∧ i.length ≤ 3 ∧ (encode i).head? = some i.opcode

theorem f1 (op : Byte) : Statement (.f1 op) := by simp [Statement, encode, Instr.length, operandBytes]

theorem f2 (op : Byte) (b : Byte) : Statement (.f2 op b) := by simp [Statement, encode, Instr.length, operandBytes]

theorem f3 (op : Byte) (w : Word) : Statement (.f3 op w) := by simp [Statement, encode, Instr.length, operandBytes]

theorem illegal (op : Byte) : Statement (.illegal op) := by simp [Statement, encode, Instr.length, operandBytes]

theorem nop : Statement (.nop) := by simp [Statement, encode, Instr.length, operandBytes]

theorem ldaImm (b : Byte) : Statement (.ldaImm b) := by simp [Statement, encode, Instr.length, operandBytes]

theorem ldxImm (b : Byte) : Statement (.ldxImm b) := by simp [Statement, encode, Instr.length, operandBytes]

theorem ldyImm (b : Byte) : Statement (.ldyImm b) := by simp [Statement, encode, Instr.length, operandBytes]

theorem ldaZp (b : Byte) : Statement (.ldaZp b) := by simp [Statement, encode, Instr.length, operandBytes]

theorem ldaAbs (w : Word) : Statement (.ldaAbs w) := by simp [Statement, encode, Instr.length, operandBytes]

theorem staZp (b : Byte) : Statement (.staZp b) := by simp [Statement, encode, Instr.length, operandBytes]

theorem staAbs (w : Word) : Statement (.staAbs w) := by simp [Statement, encode, Instr.length, operandBytes]

theorem tax : Statement (.tax) := by simp [Statement, encode, Instr.length, operandBytes]

theorem txs : Statement (.txs) := by simp [Statement, encode, Instr.length, operandBytes]

theorem tsx : Statement (.tsx) := by simp [Statement, encode, Instr.length, operandBytes]

theorem inx : Statement (.inx) := by simp [Statement, encode, Instr.length, operandBytes]

theorem dex : Statement (.dex) := by simp [Statement, encode, Instr.length, operandBytes]

theorem clc : Statement (.clc) := by simp [Statement, encode, Instr.length, operandBytes]

theorem sec : Statement (.sec) := by simp [Statement, encode, Instr.length, operandBytes]

theorem cli : Statement (.cli) := by simp [Statement, encode, Instr.length, operandBytes]

theorem sei : Statement (.sei) := by simp [Statement, encode, Instr.length, operandBytes]

theorem pha : Statement (.pha) := by simp [Statement, encode, Instr.length, operandBytes]

theorem pla : Statement (.pla) := by simp [Statement, encode, Instr.length, operandBytes]

theorem php : Statement (.php) := by simp [Statement, encode, Instr.length, operandBytes]

theorem plp : Statement (.plp) := by simp [Statement, encode, Instr.length, operandBytes]

theorem jmpAbs (w : Word) : Statement (.jmpAbs w) := by simp [Statement, encode, Instr.length, operandBytes]

theorem jsrAbs (w : Word) : Statement (.jsrAbs w) := by simp [Statement, encode, Instr.length, operandBytes]

theorem rts : Statement (.rts) := by simp [Statement, encode, Instr.length, operandBytes]

theorem rti : Statement (.rti) := by simp [Statement, encode, Instr.length, operandBytes]

theorem bneRel (b : Byte) : Statement (.bneRel b) := by simp [Statement, encode, Instr.length, operandBytes]

theorem beqRel (b : Byte) : Statement (.beqRel b) := by simp [Statement, encode, Instr.length, operandBytes]

end Sys2Proof.Laws.EncodedLength
end

