-- ==== Sys2Proof/Tests/Slice0.lean ====
section
/-! SUPPORT. Small tests, their expected results taken from the spec's worked vectors (spec/95_test_vectors.md, named in each
comment) or written out from its encodings; and for every statement with hypotheses a witness that meets them together. -/

namespace Sys2Proof.Tests

open Sys2Proof Sys2Proof.Machine

/-! ## Helpers -/

/-- The platform of spec/95_test_vectors.md's conventions: one RAM of 64 KB with the bytes given, `DEMO`, and PC. -/
def box (mem : Memory) (pc : Word) : State :=
  { State.reset with pc := pc, regions := [{ start := 0, length := 65536, backing := .ram mem }] }

/-- No flag set. -/
def off : Flags := Flags.clear

/-- Something of the next state. -/
def after {α : Type} (f : State → α) : Outcome → Option α
  | .next t => some (f t)
  | .fault _ => none
  | .refused _ => none

/-- Something of the state after bus accesses. -/
def left {α β : Type} (f : State → β) : Bus α → Option β
  | .done _ t => some (f t)
  | .miss _ => none

/-- The fault an operation ends in. -/
def faultOf : Outcome → Option Fault
  | .next _ => none
  | .fault f => some f
  | .refused _ => none

/-- The refusal an operation ends in. -/
def refusalOf : Outcome → Option Refusal
  | .next _ => none
  | .fault _ => none
  | .refused r => some r

/-- The value accesses answer. -/
def answer {α : Type} : Bus α → Option α
  | .done v _ => some v
  | .miss _ => none

/-- The table `SYN` of spec/95_test_vectors.md, as handler programs. -/
def syn : OpTab :=
  [ (0x01, { name := "ONE", length := 1, headroom := 0, handler := some (.h0 .skip) })
  , (0x02, { name := "TWO", length := 2, headroom := 0, handler := some (.h1 (.setReg .a .operand)) })
  , (0x03, { name := "THREE", length := 3, headroom := 0,
             handler := some (.h2 (.seq (.setReg .x (.lo .operand)) (.setReg .y (.hi .operand)))) })
  , (0x13, { name := "PUSH3", length := 1, headroom := 3,
             handler := some (.h0 (.seq (.pushByte (.reg .a)) (.seq (.pushByte (.reg .a)) (.pushByte (.reg .a))))) })
  , (0x23, { name := "PULL3", length := 1, headroom := -3,
             handler := some (.h0 (.seq (.pullByte 0) (.seq (.pullByte 0) (.seq (.pullByte 0) (.setReg .a (.tmp 0)))))) }) ]

/-- `box` under the table `SYN`. -/
def synBox (mem : Memory) (pc : Word) : State := { box mem pc with optab := syn }

/-- The platform of spec/95_test_vectors.md 2.3: [E, C, B, A], the newest first. -/
def regionE : Region := { start := 0x0200, length := 0x100, backing := .ram [] }
def regionC : Region := { start := 0xD000, length := 0x10, backing := .io 7 1 2 }
def regionB : Region := { start := 0xF000, length := 0x1000, backing := .rom [(0x123, 0x42)] }
def regionA : Region := { start := 0, length := 0x10000, backing := .ram [] }
def board : State := { State.reset with regions := [regionE, regionC, regionB, regionA] }

/-- A RAM of 32 KB only (spec/95_test_vectors.md 2.3, boundaries). -/
def half : State := { State.reset with regions := [{ start := 0, length := 0x8000, backing := .ram [] }] }

/-- The stack page is ROM, I/O or nothing. -/
def romStack : State :=
  { State.reset with regions := [{ start := 0x0100, length := 0x100, backing := .rom [(0, 0xEE)] }, regionA] }
def ioStack : State := { State.reset with regions := [{ start := 0x0100, length := 0x100, backing := .io 7 1 2 }, regionA] }
def noStack : State := { State.reset with regions := [{ start := 0, length := 0x100, backing := .ram [] }] }

theorem ramAt {s : State} {a : Word} (h : (resolve s.regions a).map Region.isRam = some true) : s.isRamAt a := by
  unfold State.isRamAt
  cases hr : resolve s.regions a with
  | none => rw [hr] at h; simp at h
  | some r => rw [hr] at h; exact ⟨r, rfl, by simpa using h⟩

theorem mappedAt {s : State} {a : Word} (h : (resolve s.regions a).isSome = true) : s.mapped a := h

theorem unmappedAt {s : State} {a : Word} (h : (resolve s.regions a).isSome = false) : ¬s.mapped a := by
  unfold State.mapped
  rw [h]
  simp

/-- A RAM over all addresses covers them all. -/
theorem covered_by_ram {s : State} {mem : Memory}
    (h : s.regions = [{ start := 0, length := 65536, backing := .ram mem }]) : s.fullyMapped := by
  intro a
  have := a.isLt
  unfold State.mapped
  rw [h]
  simpa [resolve, Region.covers] using this

/-! ## WellFormed: each check refuses an ill-formed term (R81, D23) -/

theorem test_wf_kind_and_length :
    Descriptor.wf { name := "T", length := 2, headroom := 0, handler := some (.h0 .skip) } = false ∧ Descriptor.wf { name := "T", length := 3, headroom := 0, handler := some (.h1 .skip) } = false ∧
      Descriptor.wf { name := "T", length := 1, headroom := 0, handler := some (.h2 .skip) } = false ∧ Descriptor.wf { name := "T", length := 4, headroom := 0, handler := some (.h0 .skip) } = false := by decide

theorem test_wf_headroom_range :
    Descriptor.wf { name := "T", length := 1, headroom := 128, handler := some (.h0 .skip) } = false ∧
      Descriptor.wf { name := "T", length := 1, headroom := -129, handler := some (.h0 .skip) } = false ∧
      Descriptor.wf { name := "T", length := 1, headroom := 127, handler := some (.h0 .skip) } = true ∧
      Descriptor.wf { name := "T", length := 1, headroom := -128, handler := some (.h0 .skip) } = true := by decide

theorem test_wf_absent_handler :
    Descriptor.wf { name := "T", length := 9, headroom := 999, handler := none } = true := by decide

theorem test_wf_table :
    OpTab.wf [(0x01, { name := "T", length := 2, headroom := 0, handler := some (.h0 .skip) })] = false ∧ OpTab.wf syn = true ∧ OpTab.wf Demo.table = true := by decide

/-- A generic row of another format, and one that `DEMO` names. -/
theorem test_wf_generic_instr :
    Instr.wf syn (.f1 0x02) = false ∧ Instr.wf syn (.f2 0x03 0) = false ∧ Instr.wf syn (.f3 0x01 0) = false ∧
      Instr.wf Demo.table (.f1 0xEA) = false ∧ Instr.wf Demo.table (.f2 0xA9 0) = false ∧
      Instr.wf Demo.table (.f3 0x4C 0) = false := by decide

theorem test_wf_illegal_instr :
    Instr.wf syn (.illegal 0x01) = false ∧ Instr.wf Demo.table (.illegal 0xEA) = false := by decide

/-- A `DEMO` row where the entry is another one; the name does not count (R80). -/
theorem test_wf_demo_instr :
    Instr.wf syn .nop = false ∧ Instr.wf syn (.ldaImm 0) = false ∧
      Instr.wf [(0xEA, { name := "T", length := 1, headroom := 1, handler := some (.h0 .skip) })] .nop = false ∧
      Instr.wf [(0xEA, { name := "T", length := 1, headroom := 0, handler := some (.h0 .skip) })] .nop = true := by decide

/-! ## Decoding: words written out from the encodings (R82, R149) -/

theorem test_decode_loads_stores :
    decode Demo.table [0b11101010] = .ok (.nop, []) ∧
    decode Demo.table [0b10101001, 0x7F] = .ok (.ldaImm 0x7F, []) ∧
    decode Demo.table [0b10100010, 0x03] = .ok (.ldxImm 0x03, []) ∧
    decode Demo.table [0b10100000, 0xFF] = .ok (.ldyImm 0xFF, []) ∧
    decode Demo.table [0b10100101, 0x10] = .ok (.ldaZp 0x10, []) ∧
    decode Demo.table [0b10101101, 0x00, 0x03] = .ok (.ldaAbs 0x0300, []) ∧
    decode Demo.table [0b10000101, 0x10] = .ok (.staZp 0x10, []) ∧
    decode Demo.table [0b10001101, 0x00, 0xF0] = .ok (.staAbs 0xF000, []) := by
  refine ⟨rfl, rfl, rfl, rfl, rfl, rfl, rfl, rfl⟩

theorem test_decode_transfers :
    decode Demo.table [0b10101010] = .ok (.tax, []) ∧
    decode Demo.table [0b10011010] = .ok (.txs, []) ∧
    decode Demo.table [0b10111010] = .ok (.tsx, []) ∧
    decode Demo.table [0b11101000] = .ok (.inx, []) ∧
    decode Demo.table [0b11001010] = .ok (.dex, []) := by
  refine ⟨rfl, rfl, rfl, rfl, rfl⟩

theorem test_decode_flags :
    decode Demo.table [0b00011000] = .ok (.clc, []) ∧
    decode Demo.table [0b00111000] = .ok (.sec, []) ∧
    decode Demo.table [0b01011000] = .ok (.cli, []) ∧
    decode Demo.table [0b01111000] = .ok (.sei, []) := by
  refine ⟨rfl, rfl, rfl, rfl⟩

theorem test_decode_stack :
    decode Demo.table [0b01001000] = .ok (.pha, []) ∧
    decode Demo.table [0b01101000] = .ok (.pla, []) ∧
    decode Demo.table [0b00001000] = .ok (.php, []) ∧
    decode Demo.table [0b00101000] = .ok (.plp, []) := by
  refine ⟨rfl, rfl, rfl, rfl⟩

theorem test_decode_control :
    decode Demo.table [0b01001100, 0x34, 0x12] = .ok (.jmpAbs 0x1234, []) ∧
    decode Demo.table [0b00100000, 0x10, 0x04] = .ok (.jsrAbs 0x0410, []) ∧
    decode Demo.table [0b01100000] = .ok (.rts, []) ∧
    decode Demo.table [0b01000000] = .ok (.rti, []) ∧
    decode Demo.table [0b11010000, 0xFC] = .ok (.bneRel 0xFC, []) ∧
    decode Demo.table [0b11110000, 0x02] = .ok (.beqRel 0x02, []) := by
  refine ⟨rfl, rfl, rfl, rfl, rfl, rfl⟩

theorem test_decode_generic :
    decode syn [0x01] = .ok (.f1 0x01, []) ∧ decode syn [0x02, 0x7F, 0xAA] = .ok (.f2 0x02 0x7F, [0xAA]) ∧
    decode syn [0x03, 0x34, 0x12] = .ok (.f3 0x03 0x1234, []) ∧ decode syn [0xFF, 0x01] = .ok (.illegal 0xFF, [0x01]) := by
  refine ⟨rfl, rfl, rfl, rfl⟩

/-- The decoder rejects by name. -/
theorem test_decode_rejects :
    decode syn [] = .error .noBytes ∧ decode syn [0x02] = .error (.truncated 0x02) ∧
    decode syn [0x03, 0x34] = .error (.truncated 0x03) ∧
    decode [(0x01, { name := "T", length := 2, headroom := 0, handler := some (.h0 .skip) })] [0x01, 0x00] =
      .error (.illFormedEntry 0x01) := by
  refine ⟨rfl, rfl, rfl, rfl⟩

theorem test_encode :
    encode (.ldaAbs 0x0300) = [0xAD, 0x00, 0x03] ∧ encode (.bneRel 0xFC) = [0xD0, 0xFC] ∧ encode .rti = [0x40] ∧
    encode (.f3 0x03 0x1234) = [0x03, 0x34, 0x12] ∧ encode (.f2 0x02 0x7F) = [0x02, 0x7F] := by
  decide

/-! ## The status byte (95_test_vectors.md 2.1, S3) -/

theorem test_pack :
    pack { n := true, v := false, b := true, d := false, i := false, z := false, c := true } = 0xB1 ∧ pack off = 0x20 ∧ pack { n := false, v := true, b := false, d := false, i := false, z := false, c := false } = 0x60 ∧
      pack { n := false, v := false, b := false, d := true, i := false, z := false, c := false } = 0x28 ∧ pack { n := true, v := false, b := false, d := false, i := false, z := true, c := true } = 0xA3 := by decide

theorem test_unpack :
    unpack 0xC3 = { n := true, v := true, b := false, d := false, i := false, z := true, c := true } ∧ unpack 0x65 = { n := false, v := true, b := false, d := false, i := true, z := false, c := true } ∧
      unpack 0x10 = { n := false, v := false, b := true, d := false, i := false, z := false, c := false } ∧ unpack 0x20 = off ∧ pack (unpack 0xDF) = 0xFF := by decide

/-! ## The stack unit (95_test_vectors.md 2.2) -/

theorem test_push_byte_wraps :
    left (fun t => (t.sp, t.peek 0x0100)) (pushByte 0xAB { box [] 0 with sp := 0 }) = some (0xFF, some 0xAB) := by decide

theorem test_pull_byte_wraps :
    answer (pullByte { box [(0x0100, 0xCD)] 0 with sp := 0xFF }) = some 0xCD ∧
      left (·.sp) (pullByte { box [(0x0100, 0xCD)] 0 with sp := 0xFF }) = some 0 := by decide

theorem test_push_word_wraps :
    left (fun t => (t.sp, t.peek 0x0100, t.peek 0x01FF)) (pushWord 0x1234 { box [] 0 with sp := 0 }) =
      some (0xFE, some 0x12, some 0x34) := by decide

theorem test_pull_word_wraps :
    answer (pullWord { box [(0x0100, 0x12), (0x01FF, 0x34)] 0 with sp := 0xFE }) = some 0x1234 ∧
      left (·.sp) (pullWord { box [(0x0100, 0x12), (0x01FF, 0x34)] 0 with sp := 0xFE }) = some 0 := by decide

theorem test_push_to_rom_is_dropped :
    left (fun t => (t.sp, t.peek 0x01FF)) (pushByte 0xAB romStack) = some (0xFE, some 0) ∧
      answer (pullByte { romStack with sp := 0xFF }) = some 0xEE := by decide

/-! ## The bus (95_test_vectors.md 2.3, S4, S9) -/

theorem test_bus_reads_go_to_the_front :
    answer (busRead 0xF123 board) = some 0x42 ∧
      (resolve board.regions 0x01FF, resolve board.regions 0x02FF, resolve board.regions 0x0300) =
        (some regionA, some regionE, some regionA) ∧
      (resolve board.regions 0xCFFF, resolve board.regions 0xD000, resolve board.regions 0xD010) =
        (some regionA, some regionC, some regionA) := by decide

theorem test_bus_write_stays_in_front :
    left (fun t => (t.regionByte 0 0, t.regionByte 3 0x0200)) (busWrite 0x0200 0x11 board) = some (some 0x11, some 0) := by decide

theorem test_rom_write_is_ignored :
    busWrite 0xF123 0x55 board = .done () board := by decide

theorem test_io_write_is_recorded :
    left (·.events) (busWrite 0xD00F 0x01 board) = some [.write 2 7 0xD00F 0x01] := by decide

theorem test_unmapped_misses :
    answer (busRead 0x7FFF half) = some 0 ∧ busRead 0x8000 half = .miss 0x8000 ∧
      faultOf (perform .reset half) = some (.busMiss 0xFFFC) := by decide

theorem test_read_vector :
    answer (readVector 0xFFFA (box [(0xFFFA, 0xCD), (0xFFFB, 0xAB)] 0)) = some 0xABCD := by decide

/-- S9, at the top of the address space. -/
theorem test_rom_file_size :
    romFileMax 0xF000 = 4096 ∧ (addRomFile 0xFFFE (some [1, 2, 3]) half).regions = half.regions ∧
      (addRomFile 0xFFFE (some [1, 2]) half).regions.map Region.length = [2, 0x8000] ∧
      (addRomFile 0xFFFE none half).regions = half.regions := by decide

/-! ## The dispatcher under `SYN` (95_test_vectors.md 2.4) -/

/-- DV9. -/
theorem test_f1_push3 :
    after (fun t => (t.peek 0x0103, t.peek 0x0101, t.sp, t.pc))
        (step { synBox [(0x200, 0x13)] 0x200 with strict := true, sp := 3, a := 0x11 }) =
      some (some 0x11, some 0x11, 0, 0x201) := by decide

/-- DV12. -/
theorem test_f1_pull3 :
    after (fun t => (t.a, t.sp, t.pc))
        (step { synBox [(0x1FD, 0xA1), (0x1FE, 0xA2), (0x1FF, 0xA3), (0x200, 0x23)] 0x200 with strict := true, sp := 0xFC }) =
      some (0xA3, 0xFF, 0x201) := by decide

/-- DV5. -/
theorem test_f2_wraps :
    after (fun t => (t.a, t.pc)) (step (synBox [(0, 0x55), (0xFFFF, 0x02)] 0xFFFF)) = some (0x55, 1) := by decide

/-- DV3. -/
theorem test_f3_operand_order :
    after (fun t => (t.x, t.y, t.pc)) (step (synBox [(0x200, 0x03), (0x201, 0x34), (0x202, 0x12)] 0x200)) =
      some (0x34, 0x12, 0x203) := by decide

/-- DV6. -/
theorem test_f3_wraps :
    after (fun t => (t.x, t.y, t.pc)) (step (synBox [(0, 0xAB), (0xFFFE, 0x03), (0xFFFF, 0xCD)] 0xFFFE)) =
      some (0xCD, 0xAB, 1) := by decide

/-- DV15. -/
theorem test_illegal_changes_nothing :
    faultOf (step { synBox [(0x200, 0xFF)] 0x200 with strict := true, sp := 0 }) =
      some (.raised .unimplementedInstruction { synBox [(0x200, 0xFF)] 0x200 with strict := true, sp := 0 }) := by decide

/-- DV8. -/
theorem test_strict_overflow :
    faultOf (step { synBox [(0x200, 0x13)] 0x200 with strict := true, sp := 2 }) =
      some (.raised .stackOverflow { synBox [(0x200, 0x13)] 0x200 with strict := true, sp := 2 }) := by decide

/-- DV11. -/
theorem test_strict_underflow :
    faultOf (step { synBox [(0x200, 0x23)] 0x200 with strict := true, sp := 0xFD }) =
      some (.raised .stackUnderflow { synBox [(0x200, 0x23)] 0x200 with strict := true, sp := 0xFD }) := by decide

theorem test_ill_formed_table_is_refused :
    refusalOf (step { box [] 0 with optab := [(0x01, { name := "T", length := 2, headroom := 0, handler := some (.h0 .skip) })] }) = some .illFormedOptab := by decide

/-- 2.4, `run`. -/
theorem test_run_counts_ok_steps :
    run 5 (synBox [(0x200, 0x01), (0x201, 0xFF)] 0x200) =
      .ended .unimplementedInstruction 1 (synBox [(0x200, 0x01), (0x201, 0xFF)] 0x201) := by decide

/-! ## The interrupt controller (95_test_vectors.md 2.5) -/

/-- IV1. -/
theorem test_irq :
    after (fun t => (t.peek 0x01FF, t.peek 0x01FE, t.peek 0x01FD))
        (perform .irq { box [(0xFFFF, 0x05)] 0x0400 with flags := { n := false, v := false, b := false, d := false, i := false, z := false, c := true } }) =
      some (some 0x04, some 0x00, some 0x21) ∧
      after (fun t => (t.sp, t.pc, pack t.flags))
        (perform .irq { box [(0xFFFF, 0x05)] 0x0400 with flags := { n := false, v := false, b := false, d := false, i := false, z := false, c := true } }) = some (0xFC, 0x0500, 0x25) := by decide

/-- IV2. -/
theorem test_nmi :
    after (fun t => (t.peek 0x0180, t.peek 0x017F, t.peek 0x017E))
        (perform .nmi { box [(0xFFFA, 0xCD), (0xFFFB, 0xAB)] 0x1234 with sp := 0x80, flags := { n := true, v := false, b := false, d := false, i := true, z := false, c := false } }) =
      some (some 0x12, some 0x34, some 0xA4) ∧
      after (fun t => (t.sp, t.pc, pack t.flags))
        (perform .nmi { box [(0xFFFA, 0xCD), (0xFFFB, 0xAB)] 0x1234 with sp := 0x80, flags := { n := true, v := false, b := false, d := false, i := true, z := false, c := false } }) =
      some (0x7D, 0xABCD, 0xA4) := by decide

/-- IV3, IV4. -/
theorem test_irq_strict_boundary :
    faultOf (perform .irq { box [] 0 with strict := true, sp := 2 }) =
      some (.raised .stackOverflow { box [] 0 with strict := true, sp := 2 }) ∧
      after (·.sp) (perform .irq { box [] 0 with strict := true, sp := 3 }) = some 0 := by decide

/-- IV5. -/
theorem test_irq_wraps :
    after (fun t => (t.peek 0x0101, t.peek 0x0100, t.peek 0x01FF, t.sp))
        (perform .irq { box [(0xFFFF, 0x05)] 0xBEEF with sp := 1, flags := off }) =
      some (some 0xBE, some 0xEF, some 0x20, 0xFE) := by decide

/-- IV7. -/
theorem test_irq_pushes_stored_break :
    after (fun t => (t.peek 0x01FD, pack t.flags)) (perform .irq { box [] 0x0600 with flags := { n := false, v := false, b := true, d := false, i := false, z := false, c := false } }) =
      some (some 0x30, 0x34) := by decide

/-- S6. -/
theorem test_reset :
    after (fun t => (t.pc, t.sp, pack t.flags, t.strict))
        (perform .reset { box [(0xFFFC, 0x34), (0xFFFD, 0x12)] 0x9999 with
          a := 0x55, x := 0x66, y := 0x77, sp := 0x10, flags := { n := true, v := true, b := true, d := true, i := false, z := true, c := true }, strict := true }) =
      some (0x1234, 0xFF, 0x24, true) := by decide

/-! ## The rows of `DEMO` (95_test_vectors.md 2.6) -/

/-- R150. -/
theorem test_nop :
    after (fun t => (t.pc, t.sp, pack t.flags))
        (step (box [(0x200, 0xEA)] 0x200)) =
      some (0x201, 0xFF, 0x24) := by decide

/-- R151. -/
theorem test_lda_imm_zero :
    after (fun t => (t.a, t.flags.z, t.flags.n, t.pc))
        (step { box [(0x200, 0xA9), (0x201, 0x00)] 0x200 with a := 0x55 }) =
      some (0, true, false, 0x202) := by decide

/-- R151. -/
theorem test_lda_imm_negative :
    after (fun t => (t.a, t.flags.z, t.flags.n))
        (step (box [(0x200, 0xA9), (0x201, 0x80)] 0x200)) =
      some (0x80, false, true) := by decide

/-- R152. -/
theorem test_ldx_imm :
    after (fun t => (t.x, t.flags.z, t.flags.n))
        (step (box [(0x200, 0xA2), (0x201, 0x03)] 0x200)) =
      some (0x03, false, false) := by decide

/-- R153. -/
theorem test_ldy_imm :
    after (fun t => (t.y, t.flags.z, t.flags.n))
        (step (box [(0x200, 0xA0), (0x201, 0xFF)] 0x200)) =
      some (0xFF, false, true) := by decide

/-- R154. -/
theorem test_lda_zp :
    after (fun t => (t.a, t.flags.z, t.flags.n))
        (step (box [(0x10, 0x80), (0x200, 0xA5), (0x201, 0x10)] 0x200)) =
      some (0x80, false, true) := by decide

/-- R155. -/
theorem test_lda_abs :
    after (fun t => (t.a, t.flags.z, t.flags.n, t.pc))
        (step { box [(0x200, 0xAD), (0x201, 0x00), (0x202, 0x03)] 0x200 with a := 0x55 }) =
      some (0, true, false, 0x203) := by decide

/-- R156. -/
theorem test_sta_zp :
    after (fun t => (t.peek 0x0010, pack t.flags, t.pc))
        (step { box [(0x200, 0x85), (0x201, 0x10)] 0x200 with a := 0x7F }) =
      some (some 0x7F, 0x24, 0x202) := by decide

/-- R157. -/
theorem test_sta_abs :
    after (fun t => (t.peek 0x0300, t.peek 0x0003, t.pc))
        (step { box [(0x200, 0x8D), (0x201, 0x00), (0x202, 0x03)] 0x200 with a := 0xAA }) =
      some (some 0xAA, some 0, 0x203) := by decide

/-- R158. -/
theorem test_tax :
    after (fun t => (t.x, t.flags.z, t.flags.n))
        (step { box [(0x200, 0xAA)] 0x200 with a := 0, x := 0x55 }) =
      some (0, true, false) := by decide

/-- R159. -/
theorem test_txs :
    after (fun t => (t.sp, t.flags.z, t.flags.n))
        (step { box [(0x200, 0x9A)] 0x200 with x := 0x00 }) =
      some (0, false, false) := by decide

/-- R160. -/
theorem test_tsx :
    after (fun t => (t.x, t.flags.z, t.flags.n))
        (step (box [(0x200, 0xBA)] 0x200)) =
      some (0xFF, false, true) := by decide

/-- R161. -/
theorem test_inx_wraps :
    after (fun t => (t.x, t.flags.z, t.flags.n, t.flags.c))
        (step { box [(0x200, 0xE8)] 0x200 with x := 0xFF }) =
      some (0, true, false, false) := by decide

/-- R161. -/
theorem test_inx_sign :
    after (fun t => (t.x, t.flags.z, t.flags.n))
        (step { box [(0x200, 0xE8)] 0x200 with x := 0x7F }) =
      some (0x80, false, true) := by decide

/-- R162. -/
theorem test_dex_wraps :
    after (fun t => (t.x, t.flags.z, t.flags.n))
        (step { box [(0x200, 0xCA)] 0x200 with x := 0 }) =
      some (0xFF, false, true) := by decide

/-- R162. -/
theorem test_dex_zero :
    after (fun t => (t.x, t.flags.z, t.flags.n))
        (step { box [(0x200, 0xCA)] 0x200 with x := 1 }) =
      some (0, true, false) := by decide

/-- R163. -/
theorem test_clc :
    after (fun t => (pack t.flags, t.pc))
        (step { box [(0x200, 0x18)] 0x200 with flags := unpack 0xFF }) =
      some (0xFE, 0x201) := by decide

/-- R164. -/
theorem test_sec :
    after (fun t => (pack t.flags, t.pc))
        (step { box [(0x200, 0x38)] 0x200 with flags := off }) =
      some (0x21, 0x201) := by decide

/-- R165. -/
theorem test_cli :
    after (fun t => (pack t.flags, t.pc))
        (step { box [(0x200, 0x58)] 0x200 with flags := unpack 0xFF }) =
      some (0xFB, 0x201) := by decide

/-- R166. -/
theorem test_sei :
    after (fun t => (pack t.flags, t.pc))
        (step { box [(0x200, 0x78)] 0x200 with flags := off }) =
      some (0x24, 0x201) := by decide

/-- R167. -/
theorem test_pha :
    after (fun t => (t.peek 0x01FF, t.sp, t.pc))
        (step { box [(0x200, 0x48)] 0x200 with a := 0xAA }) =
      some (some 0xAA, 0xFE, 0x201) := by decide

/-- R167. -/
theorem test_pha_strict :
    faultOf (step { box [(0x200, 0x48)] 0x200 with strict := true, sp := 0 }) =
      some (.raised .stackOverflow { box [(0x200, 0x48)] 0x200 with strict := true, sp := 0 }) := by decide

/-- R168. -/
theorem test_pla :
    after (fun t => (t.a, t.sp, t.flags.z, t.flags.n))
        (step { box [(0x200, 0x68)] 0x200 with sp := 0xFE, a := 0x55 }) =
      some (0, 0xFF, true, false) := by decide

/-- R168. -/
theorem test_pla_strict :
    faultOf (step { box [(0x200, 0x68)] 0x200 with strict := true }) =
      some (.raised .stackUnderflow { box [(0x200, 0x68)] 0x200 with strict := true }) := by decide

/-- R169. -/
theorem test_php :
    after (fun t => (t.peek 0x01FF, t.sp))
        (step { box [(0x200, 0x08)] 0x200 with flags := unpack 0x05 }) =
      some (some 0x25, 0xFE) := by decide

/-- R170. -/
theorem test_plp :
    after (fun t => (t.flags, t.sp))
        (step { box [(0x1FF, 0xC3), (0x200, 0x28)] 0x200 with sp := 0xFE }) =
      some ({ n := true, v := true, b := false, d := false, i := false, z := true, c := true }, 0xFF) := by decide

/-- R171. -/
theorem test_jmp :
    after (fun t => (t.pc))
        (step (box [(0x200, 0x4C), (0x201, 0x34), (0x202, 0x12)] 0x200)) =
      some (0x1234) := by decide

/-- R172. -/
theorem test_jsr :
    after (fun t => (t.peek 0x01FF, t.peek 0x01FE, t.sp, t.pc))
        (step (box [(0x400, 0x20), (0x401, 0x10), (0x402, 0x04)] 0x400)) =
      some (some 0x04, some 0x02, 0xFD, 0x410) := by decide

/-- R172. -/
theorem test_jsr_strict :
    faultOf (step { box [(0x400, 0x20), (0x401, 0x10), (0x402, 0x04)] 0x400 with strict := true, sp := 1 }) =
      some (.raised .stackOverflow { box [(0x400, 0x20), (0x401, 0x10), (0x402, 0x04)] 0x400 with strict := true, sp := 1 }) := by decide

/-- R173. -/
theorem test_rts :
    after (fun t => (t.pc, t.sp))
        (step { box [(0x1FE, 0x02), (0x1FF, 0x04), (0x200, 0x60)] 0x200 with sp := 0xFD }) =
      some (0x403, 0xFF) := by decide

/-- R173. -/
theorem test_rts_strict :
    faultOf (step { box [(0x200, 0x60)] 0x200 with strict := true, sp := 0xFE }) =
      some (.raised .stackUnderflow { box [(0x200, 0x60)] 0x200 with strict := true, sp := 0xFE }) := by decide

/-- R174. -/
theorem test_rti :
    after (fun t => (t.flags, t.pc, t.sp))
        (step { box [(0x1FD, 0x21), (0x1FF, 0x04), (0x200, 0x40)] 0x200 with sp := 0xFC }) =
      some ({ n := false, v := false, b := false, d := false, i := false, z := false, c := true }, 0x400, 0xFF) := by decide

/-- R174. -/
theorem test_rti_strict :
    faultOf (step { box [(0x200, 0x40)] 0x200 with strict := true, sp := 0xFD }) =
      some (.raised .stackUnderflow { box [(0x200, 0x40)] 0x200 with strict := true, sp := 0xFD }) := by decide

/-- R175. -/
theorem test_bne_back :
    after (fun t => (t.pc))
        (step { box [(0x200, 0xD0), (0x201, 0x80)] 0x200 with flags := off }) =
      some (0x182) := by decide

/-- R175. -/
theorem test_bne_forward :
    after (·.pc) (step { box [(0x200, 0xD0), (0x201, 0x7F)] 0x200 with flags := off }) = some 0x281 ∧
      after (·.pc) (step { box [(0x206, 0xD0), (0x207, 0xFC)] 0x206 with flags := unpack 0x02 }) = some 0x208 := by decide

/-- R176. -/
theorem test_beq :
    after (·.pc) (step { box [(0x300, 0xF0), (0x301, 0x02)] 0x300 with flags := unpack 0x02 }) = some 0x304 ∧
      after (·.pc) (step { box [(0x300, 0xF0), (0x301, 0x02)] 0x300 with flags := off }) = some 0x302 := by decide

/-! ## The word numbering (R87; log 22) and placing an instruction (log 23) -/

theorem test_with_fetch_word :
    after (fun t => (t.a, t.pc)) (step (State.reset.withFetchWord 16 0xA97F)) = some (0x7F, 2) ∧
      after (·.pc) (step (State.reset.withFetchWord 24 0x4C3412)) = some 0x1234 ∧
      (State.reset.withFetchWord 8 0xEA).optab = State.reset.optab := by decide

/-! ## Witnesses: for every statement with hypotheses, states and operands that meet all of them together, one for each
clause and at the boundaries. -/

theorem witness_bus_access_io :
    board.regions = [regionE] ++ regionC :: [regionB, regionA] ∧ (∀ q ∈ [regionE], q.covers 0xD000 = false) ∧
      regionC.covers 0xD000 = true ∧ regionC.covers 0xD00F = true ∧ regionC.backing = .io 7 1 2 := by decide

theorem witness_bus_access_rom :
    board.regions = [regionE, regionC] ++ regionB :: [regionA] ∧
      (∀ q ∈ [regionE, regionC], q.covers 0xF000 = false) ∧ regionB.covers 0xF000 = true ∧ regionB.covers 0xFFFF = true ∧
      regionB.isPlain = true ∧ regionB.backing = .rom [(0x123, 0x42)] := by decide

theorem witness_bus_access_ram :
    board.regions = [] ++ regionE :: [regionC, regionB, regionA] ∧ (∀ q ∈ ([] : List Region), q.covers 0x0200 = false) ∧
      regionE.covers 0x0200 = true ∧ regionE.covers 0x02FF = true ∧ regionE.covers 0x0300 = false ∧
      regionE.isPlain = true ∧ regionE.backing = .ram [] := by decide

theorem witness_bus_access_unmapped : ∀ q ∈ half.regions, q.covers 0x8000 = false := by decide

/-- RamWriteChangesOneByte, StoreIsSeenByFetch: the ends of a RAM, and a RAM in front of another. -/
theorem witness_ram_addresses :
    half.isRamAt 0x0000 ∧ half.isRamAt 0x7FFF ∧ board.isRamAt 0x0200 ∧ board.isRamAt 0xEFFF :=
  ⟨ramAt (by decide), ramAt (by decide), ramAt (by decide), ramAt (by decide)⟩

/-- NewRamRegionShadowsWhatItCovers and IoRegionGetsHandleAndAbsoluteAddress: start 0x1000, length 0x10. -/
theorem witness_new_region :
    ((0x1000 : Word).toNat ≤ (0x1000 : Word).toNat ∧ (0x1000 : Word).toNat < (0x1000 : Word).toNat + 0x10) ∧
    ((0x1000 : Word).toNat ≤ (0x100F : Word).toNat ∧ (0x100F : Word).toNat < (0x1000 : Word).toNat + 0x10) ∧
    ¬((0x1000 : Word).toNat ≤ (0x0FFF : Word).toNat ∧ (0x0FFF : Word).toNat < (0x1000 : Word).toNat + 0x10) ∧
    ¬((0x1000 : Word).toNat ≤ (0x1010 : Word).toNat ∧ (0x1010 : Word).toNat < (0x1000 : Word).toNat + 0x10) := by decide

/-- RomRegionAnswersItsBytes: the first and the last byte of three given for two, and the file sizes about the budget. -/
theorem witness_rom_region :
    (2 ≤ [5, 6, (7 : Byte)].length ∧ (0xFFFE : Word).toNat = (0xFFFE : Word).toNat + 0 ∧ 0 < 2 ∧
      [5, 6, (7 : Byte)][0]? = some 5) ∧
    ((0xFFFF : Word).toNat = (0xFFFE : Word).toNat + 1 ∧ 1 < 2 ∧ [5, 6, (7 : Byte)][1]? = some 6) ∧
    [1, (2 : Byte)].length ≤ 65536 - (0xFFFE : Word).toNat ∧
    65536 - (0xFFFE : Word).toNat < [1, 2, (3 : Byte)].length := by decide

theorem witness_vector :
    (box [(0xFFFE, 0x34), (0xFFFF, 0x12)] 0).peek 0xFFFE = some 0x34 ∧
      (box [(0xFFFE, 0x34), (0xFFFF, 0x12)] 0).peek (0xFFFE + 1) = some 0x12 ∧
      (box [(0, 7)] 0).peek (0xFFFF + 1) = some 7 := by decide

theorem witness_store_seen_by_fetch :
    ∃ t, (box [] 0).isRamAt 3 ∧ exec (.staAbs 3) (box [] 0) = .next t ∧
      (t.setPc 3).regions = t.regions ∧ (t.setPc 3).pc = 3 :=
  ⟨_, ramAt (by decide), rfl, rfl, rfl⟩

theorem witness_direct_path :
    directPathAgrees (box [] 0) 0 { start := 0, length := 65536, backing := .ram [] } ∧
      directPathAgrees { box [] 0 with regions := [regionB, { start := 0, length := 512, backing := .ram [] }] } 1
        { start := 0, length := 512, backing := .ram [] } ∧ (0x01FF : Word).toNat < 512 := by
  refine ⟨⟨rfl, rfl, rfl, by decide, fun j q h => by omega⟩, ⟨rfl, rfl, rfl, by decide, fun j q h hq => ?_⟩, by decide⟩
  obtain rfl : j = 0 := by omega
  obtain rfl := Option.some.inj hq
  decide

/-- PushByteWritesTheFreeSlot: RAM at both ends of the page, ROM, I/O, no region. -/
theorem witness_push_byte :
    ({ box [] 0 with sp := 0 } : State).isRamAt (stackAddr 0) ∧ (box [] 0).isRamAt (stackAddr 0xFF) ∧
      resolve romStack.regions (stackAddr romStack.sp) =
        some { start := 0x0100, length := 0x100, backing := .rom [(0, 0xEE)] } ∧
      resolve ioStack.regions (stackAddr ioStack.sp) = some { start := 0x0100, length := 0x100, backing := .io 7 1 2 } ∧
      ¬noStack.mapped (stackAddr noStack.sp) :=
  ⟨ramAt (by decide), ramAt (by decide), by decide, by decide, unmappedAt (by decide)⟩

/-- PullReadsAboveTheFreeSlot: SP wraps on the first byte, and between the two. -/
theorem witness_pull :
    (box [(0x0100, 0x34), (0x0101, 0x12)] 0).peek (stackAddr ((0xFF : Byte) + 1)) = some 0x34 ∧
      (box [(0x0100, 0x34), (0x0101, 0x12)] 0).peek (stackAddr ((0xFF : Byte) + 2)) = some 0x12 ∧
      (box [(0x0100, 0x12), (0x01FF, 0x34)] 0).peek (stackAddr ((0xFE : Byte) + 1)) = some 0x34 ∧
      (box [(0x0100, 0x12), (0x01FF, 0x34)] 0).peek (stackAddr ((0xFE : Byte) + 2)) = some 0x12 := by decide

/-- PushWordStoresHighThenLow, PullUndoesPush, SubroutineCallResult: SP at 0, where the second slot wraps. -/
theorem witness_push_word :
    ({ box [] 0 with sp := 0 } : State).isRamAt (stackAddr 0) ∧
      ({ box [] 0 with sp := 0 } : State).isRamAt (stackAddr (0 - 1)) :=
  ⟨ramAt (by decide), ramAt (by decide)⟩

/-- StrictCheckFollowsItsTable: each of its outcomes, at its boundary. -/
theorem witness_strict_check :
    stackCheck 3 { box [] 0 with strict := true, sp := 2 } = some .stackOverflow ∧
      stackCheck 3 { box [] 0 with strict := true, sp := 3 } = none ∧
      stackCheck (-3) { box [] 0 with strict := true, sp := 0xFD } = some .stackUnderflow ∧
      stackCheck (-3) { box [] 0 with strict := true, sp := 0xFC } = none ∧
      stackCheck 3 { box [] 0 with sp := 0 } = none := by decide

/-- StepRunsTheDecodedInstruction: a row of each format, of `DEMO`, and the illegal class, at the top of the addresses. -/
theorem witness_step_runs_decoded :
    syn.wf = true ∧ State.peekBytes 1 0xFFFF (synBox [(0xFFFF, 0x01)] 0xFFFF) = some [0x01] ∧
      decode syn [0x01] = .ok (.f1 0x01, []) ∧
      State.peekBytes 2 0xFFFF (synBox [(0, 0x55), (0xFFFF, 0x02)] 0xFFFF) = some [0x02, 0x55] ∧
      decode syn [0x02, 0x55] = .ok (.f2 0x02 0x55, []) ∧
      State.peekBytes 3 0xFFFE (synBox [(0, 0xAB), (0xFFFE, 0x03), (0xFFFF, 0xCD)] 0xFFFE) = some [0x03, 0xCD, 0xAB] ∧
      decode syn [0x03, 0xCD, 0xAB] = .ok (.f3 0x03 0xABCD, []) ∧
      State.peekBytes 1 0 (synBox [] 0) = some [0x00] ∧ decode syn [0x00] = .ok (.illegal 0x00, []) ∧
      Demo.table.wf = true ∧ State.peekBytes 3 0 (box [(0, 0x8D), (2, 0x03)] 0) = some [0x8D, 0x00, 0x03] ∧
      decode Demo.table [0x8D, 0x00, 0x03] = .ok (.staAbs 0x0300, []) := by
  refine ⟨by decide, by decide, rfl, by decide, rfl, by decide, rfl, by decide, rfl, by decide, by decide, rfl⟩

/-- StepIsTheTableDrivenSequence and the statements for a well-formed table. -/
theorem witness_well_formed_table : State.reset.optab.wf = true ∧ (synBox [] 0).optab.wf = true := by decide

/-- UnimplementedInstructionCondition, StackOverflowCondition, StackUnderflowCondition: each error is raised, with its
premises met at the boundary; `irq` raises its own. -/
theorem witness_step_errors :
    faultOf (step (synBox [] 0)) = some (.raised .unimplementedInstruction (synBox [] 0)) ∧
      faultOf (step { synBox [(0, 0x13)] 0 with strict := true, sp := 2 }) =
        some (.raised .stackOverflow { synBox [(0, 0x13)] 0 with strict := true, sp := 2 }) ∧
      faultOf (step { synBox [(0, 0x23)] 0 with strict := true, sp := 0xFD }) =
        some (.raised .stackUnderflow { synBox [(0, 0x23)] 0 with strict := true, sp := 0xFD }) ∧
      faultOf (perform .nmi { box [] 0 with strict := true, sp := 2 }) =
        some (.raised .stackOverflow { box [] 0 with strict := true, sp := 2 }) ∧
      faultOf (perform .step (synBox [] 0)) = some (.raised .unimplementedInstruction (synBox [] 0)) := by decide

/-- StepErrorChangesNothing: an error, with the opcode in plain memory. -/
theorem witness_step_error :
    step (synBox [] 0) = .fault (.raised .unimplementedInstruction (synBox [] 0)) ∧
      (synBox [] 0).peek (synBox [] 0).pc = some 0 := ⟨rfl, by decide⟩

/-- GenericFormatsComplete: a platform that is all RAM, and an entry of each format; the declared headroom just there. -/
theorem witness_generic_complete :
    ({ synBox [] 0 with strict := true, sp := 3 } : State).fullyMapped ∧
      roomFor (syn.entry 0x13).headroom { synBox [] 0 with strict := true, sp := 3 } ∧
      roomFor (syn.entry 0x02).headroom (synBox [] 0) ∧ roomFor (syn.entry 0x03).headroom (synBox [] 0) ∧
      (∃ p, (syn.entry 0x13).handler = some (.h0 p)) ∧ (syn.entry 0x13).length = 1 ∧
      (syn.entry 0x02).handler = some (.h1 (.setReg .a .operand)) ∧ (syn.entry 0x02).length = 2 ∧
      (∃ p, (syn.entry 0x03).handler = some (.h2 p)) ∧ (syn.entry 0x03).length = 3 :=
  ⟨covered_by_ram rfl, by unfold roomFor; decide, by unfold roomFor; decide, by unfold roomFor; decide, ⟨_, rfl⟩, rfl, rfl,
    rfl, ⟨_, rfl⟩, rfl⟩

/-- GenericFormatsStop: no handler, another format, the strict check. -/
theorem witness_generic_stop :
    (syn.entry 0x00).handler = none ∧ (syn.entry 0x01).handler = some (.h0 .skip) ∧ (syn.entry 0x01).length ≠ 2 ∧
      (syn.entry 0x13).length = 1 ∧ ((syn.entry 0x13).handler.map Handler.length) = some 1 ∧
      stackCheck (syn.entry 0x13).headroom { synBox [] 0 with strict := true, sp := 2 } = some .stackOverflow := by decide

theorem witness_handler_done : ∃ t, invoke (.h1 .skip) 5 (synBox [] 0) = .done () t := ⟨_, rfl⟩

/-- StepKeepsControlsAndLayout, StepKeepsTheInvariant. -/
theorem witness_step_next : ∃ t, step (synBox [(0, 0x01)] 0) = .next t := ⟨_, rfl⟩

/-- DecodeEncodeRoundTrip: instructions of every shape are well-formed under their tables. -/
theorem witness_instr_wf :
    Instr.wf syn (.f1 0x01) = true ∧ Instr.wf syn (.f2 0x02 0xFF) = true ∧ Instr.wf syn (.f3 0x03 0xFFFF) = true ∧
      Instr.wf syn (.illegal 0x00) = true ∧ Instr.wf Demo.table .nop = true ∧
      Instr.wf Demo.table (.beqRel 0x80) = true ∧ Instr.wf Demo.table (.jsrAbs 0xFFFF) = true := by decide

/-- DecodedInstructionHasItsBytes. -/
theorem witness_decoded : decode syn [0x03, 0x34, 0x12, 0xFF] = .ok (.f3 0x03 0x1234, [0xFF]) ∧ syn.wf = true :=
  ⟨rfl, by decide⟩

/-- MemoryLoadResults: zero page and absolute; plain memory, an I/O region, no region. -/
theorem witness_memory_load :
    (∃ b : Byte, Instr.ldaZp 0xFF = .ldaZp b ∧ (0x00FF : Word) = b.setWidth 16 ∧ (2 : Word) = 2) ∧
      (Instr.ldaAbs 0xFFFF = .ldaAbs 0xFFFF ∧ (3 : Word) = 3) ∧ (box [(0xFFFF, 0x80)] 0).peek 0xFFFF = some 0x80 ∧
      (box [] 0).peek 0x00FF = some 0 ∧ board.mapped 0xD000 ∧ board.peek 0xD000 = none ∧ ¬half.mapped 0x8000 :=
  ⟨⟨0xFF, rfl, by decide, rfl⟩, ⟨rfl, rfl⟩, by decide, by decide, mappedAt (by decide), by decide,
    unmappedAt (by decide)⟩

/-- StoreResults: RAM, ROM, I/O, no region, for both forms. -/
theorem witness_store :
    (∃ b : Byte, Instr.staZp 0xFF = .staZp b ∧ (0x00FF : Word) = b.setWidth 16 ∧ (2 : Word) = 2) ∧
      (Instr.staAbs 0x7FFF = .staAbs 0x7FFF ∧ (3 : Word) = 3) ∧ half.isRamAt 0x00FF ∧ half.isRamAt 0x7FFF ∧
      resolve board.regions 0xF000 = some regionB ∧ regionB.backing = .rom [(0x123, 0x42)] ∧
      resolve board.regions 0xD00F = some regionC ∧ regionC.backing = .io 7 1 2 ∧ ¬half.mapped 0xFFFF :=
  ⟨⟨0xFF, rfl, by decide, rfl⟩, ⟨rfl, rfl⟩, ramAt (by decide), ramAt (by decide), by decide, rfl, by decide, rfl,
    unmappedAt (by decide)⟩

/-- PushInstructionResults: both rows, strict with the last byte of room; RAM, I/O, no region. -/
theorem witness_push_instructions :
    ((Instr.pha = .pha ∧ (0x11 : Byte) = ({ box [] 0 with a := 0x11, strict := true, sp := 1 } : State).a)) ∧
      (Instr.php = .php ∧ (0x24 : Byte) = pack (box [] 0).flags) ∧
      (({ box [] 0 with a := 0x11, strict := true, sp := 1 } : State).strict = true →
        1 ≤ ({ box [] 0 with a := 0x11, strict := true, sp := 1 } : State).sp.toNat) ∧
      ({ box [] 0 with a := 0x11, strict := true, sp := 1 } : State).isRamAt (stackAddr 1) ∧
      ioStack.mapped (stackAddr ioStack.sp) ∧ ¬noStack.mapped (stackAddr noStack.sp) :=
  ⟨⟨rfl, rfl⟩, ⟨rfl, by decide⟩, by decide, ramAt (by decide), mappedAt (by decide), unmappedAt (by decide)⟩

/-- PullInstructionResults: strict with one byte to take, and the wrap when strict is 0. -/
theorem witness_pull_instructions :
    (({ box [] 0 with strict := true, sp := 0xFE } : State).strict = true →
        1 ≤ 255 - ({ box [] 0 with strict := true, sp := 0xFE } : State).sp.toNat) ∧
      ({ box [] 0 with strict := true, sp := 0xFE } : State).peek (stackAddr (0xFE + 1)) = some 0 ∧
      (box [] 0).peek (stackAddr (0xFF + 1)) = some 0 ∧ ({ ioStack with sp := 0 } : State).mapped (stackAddr (0 + 1)) ∧
      ¬noStack.mapped (stackAddr (noStack.sp + 1)) :=
  ⟨by decide, by decide, by decide, mappedAt (by decide), unmappedAt (by decide)⟩

/-- SubroutineCallResult: strict with two bytes of room. -/
theorem witness_call :
    (({ box [] 0 with strict := true, sp := 2 } : State).strict = true →
        2 ≤ ({ box [] 0 with strict := true, sp := 2 } : State).sp.toNat) ∧
      ({ box [] 0 with strict := true, sp := 2 } : State).isRamAt (stackAddr 2) ∧
      ({ box [] 0 with strict := true, sp := 2 } : State).isRamAt (stackAddr (2 - 1)) ∧
      ({ ioStack with sp := 0 } : State).mapped (stackAddr 0) ∧ ({ ioStack with sp := 0 } : State).mapped (stackAddr (0 - 1)) :=
  ⟨by decide, ramAt (by decide), ramAt (by decide), mappedAt (by decide), mappedAt (by decide)⟩

/-- ReturnResults: strict with just the bytes there; RAM and I/O stacks. -/
theorem witness_return :
    (({ box [] 0 with strict := true, sp := 0xFD } : State).strict = true →
        2 ≤ 255 - ({ box [] 0 with strict := true, sp := 0xFD } : State).sp.toNat) ∧
      (box [(0x01FE, 2), (0x01FF, 4)] 0).peek (stackAddr (0xFD + 1)) = some 2 ∧
      (box [(0x01FE, 2), (0x01FF, 4)] 0).peek (stackAddr (0xFD + 2)) = some 4 ∧
      (({ box [] 0 with strict := true, sp := 0xFC } : State).strict = true →
        3 ≤ 255 - ({ box [] 0 with strict := true, sp := 0xFC } : State).sp.toNat) ∧
      (box [(0x01FD, 0x21)] 0).peek (stackAddr (0xFC + 1)) = some 0x21 ∧
      (box [(0x01FD, 0x21)] 0).peek (stackAddr (0xFC + 2)) = some 0 ∧
      (box [(0x01FD, 0x21)] 0).peek (stackAddr (0xFC + 3)) = some 0 ∧
      ioStack.mapped (stackAddr (0xFF + 1)) ∧ ioStack.mapped (stackAddr (0xFF + 2)) ∧
      ioStack.mapped (stackAddr (0xFF + 3)) :=
  ⟨by decide, by decide, by decide, by decide, by decide, by decide, by decide, mappedAt (by decide),
    mappedAt (by decide), mappedAt (by decide)⟩

/-- DemoRowsComplete: a row that pulls three bytes, strict with just the room, and one that stores two. -/
theorem witness_demo_completes :
    isDemoRow .rti = true ∧ roomFor (demoHeadroom .rti) { box [] 0 with strict := true, sp := 0xFC } ∧
      (∀ a, a ∈ loadedAddrs .rti { box [] 0 with strict := true, sp := 0xFC } ++
          storedAddrs .rti { box [] 0 with strict := true, sp := 0xFC } →
        ({ box [] 0 with strict := true, sp := 0xFC } : State).mapped a) ∧
      isDemoRow (.jsrAbs 5) = true ∧ roomFor (demoHeadroom (.jsrAbs 5)) { box [] 0 with strict := true, sp := 2 } ∧
      (∀ a, a ∈ loadedAddrs (.jsrAbs 5) { box [] 0 with strict := true, sp := 2 } ++
          storedAddrs (.jsrAbs 5) { box [] 0 with strict := true, sp := 2 } →
        ({ box [] 0 with strict := true, sp := 2 } : State).mapped a) :=
  ⟨rfl, by unfold roomFor; decide, fun a _ => covered_by_ram (mem := []) rfl a, rfl, by unfold roomFor; decide,
    fun a _ => covered_by_ram (mem := []) rfl a⟩

/-- DemoRowsTrapOnlyInStrictMode: both errors, at the boundary. -/
theorem witness_demo_traps :
    isDemoRow .rti = true ∧
      faultOf (exec .rti { box [] 0 with strict := true, sp := 0xFD }) =
        some (.raised .stackUnderflow { box [] 0 with strict := true, sp := 0xFD }) ∧
      faultOf (exec (.jsrAbs 5) { box [] 0 with strict := true, sp := 1 }) =
        some (.raised .stackOverflow { box [] 0 with strict := true, sp := 1 }) := by decide

/-- DemoMemoryFrame, DemoRegisterFrame: a row that stores, one that does not; the addresses plain memory. -/
theorem witness_demo_frame :
    (isDemoRow (.staAbs 0x0300) = true ∧ (∃ t, exec (.staAbs 0x0300) (box [] 0) = .next t) ∧
        (0x0301 : Word) ∉ storedAddrs (.staAbs 0x0300) (box [] 0) ∧
        ∀ a, a ∈ loadedAddrs (.staAbs 0x0300) (box [] 0) ++ storedAddrs (.staAbs 0x0300) (box [] 0) →
          ∃ v, (box [] 0).peek a = some v) ∧
      isDemoRow .tax = true ∧ (∃ t, exec .tax (box [] 0) = .next t) ∧ storedAddrs .tax (box [] 0) = [] := by
  refine ⟨⟨rfl, ⟨_, rfl⟩, by decide, fun a ha => ?_⟩, rfl, ⟨_, rfl⟩, rfl⟩
  obtain rfl : a = 0x0300 := by simpa [loadedAddrs, storedAddrs] using ha
  exact ⟨0, by decide⟩

/-- DemoRegisterFrame: a row of each group of its clauses completes. -/
theorem witness_demo_register_frame :
    (∃ t, exec (.ldaImm 1) (box [] 0) = .next t) ∧ (∃ t, exec .inx (box [] 0) = .next t) ∧
      (∃ t, exec .pha (box [] 0) = .next t) ∧ (∃ t, exec .plp (box [] 0) = .next t) ∧
      (∃ t, exec .clc (box [] 0) = .next t) ∧ ∃ t, exec .sei (box [] 0) = .next t :=
  ⟨⟨_, rfl⟩, ⟨_, rfl⟩, ⟨_, rfl⟩, ⟨_, rfl⟩, ⟨_, rfl⟩, ⟨_, rfl⟩⟩

/-- InterruptPushesItsFrame, ReturnUndoesInterrupt: strict with just three bytes of room, the frame on RAM, the vector in
plain memory; and the refusal below that. -/
theorem witness_interrupt :
    ((HostOp.irq = .irq ∧ (0xFFFE : Word) = 0xFFFE) ∧ HostOp.nmi = .nmi ∧ (0xFFFA : Word) = 0xFFFA) ∧
      ¬(({ box [] 0 with strict := true, sp := 3 } : State).strict = true ∧
          ({ box [] 0 with strict := true, sp := 3 } : State).sp.toNat < 3) ∧
      ({ box [] 0 with strict := true, sp := 3 } : State).isRamAt (stackAddr 3) ∧
      ({ box [] 0 with strict := true, sp := 3 } : State).isRamAt (stackAddr (3 - 1)) ∧
      ({ box [] 0 with strict := true, sp := 3 } : State).isRamAt (stackAddr (3 - 2)) ∧
      ({ box [] 0 with strict := true, sp := 3 } : State).peek 0xFFFE = some 0 ∧
      ({ box [] 0 with strict := true, sp := 3 } : State).peek (0xFFFE + 1) = some 0 ∧
      ({ box [] 0 with strict := true, sp := 3 } : State).peek 0xFFFA = some 0 ∧
      ({ box [] 0 with strict := true, sp := 3 } : State).peek (0xFFFA + 1) = some 0 ∧
      (({ box [] 0 with strict := true, sp := 2 } : State).strict = true ∧
          ({ box [] 0 with strict := true, sp := 2 } : State).sp.toNat < 3) :=
  ⟨⟨⟨rfl, rfl⟩, rfl, rfl⟩, by decide, ramAt (by decide), ramAt (by decide), ramAt (by decide), by decide, by decide,
    by decide, by decide, by decide⟩

theorem witness_reset :
    (box [(0xFFFC, 0x34), (0xFFFD, 0x12)] 0).peek 0xFFFC = some 0x34 ∧
      (box [(0xFFFC, 0x34), (0xFFFD, 0x12)] 0).peek 0xFFFD = some 0x12 := by decide

theorem witness_launch : (box [] 5).optab = Demo.table := rfl

/-- OnlyTheHostWritesControls: operations that change each of its fields complete. -/
theorem witness_host_controls :
    (∃ t, perform (.setStrict true) (box [] 0) = .next t ∧ t.strict ≠ (box [] 0).strict) ∧
      (∃ t, perform (.setTrace true) (box [] 0) = .next t ∧ t.trace ≠ (box [] 0).trace) ∧
      ∃ t, perform (.addRam 0 1) (box [] 0) = .next t ∧ t.layout ≠ (box [] 0).layout :=
  ⟨⟨_, rfl, by decide⟩, ⟨_, rfl, by decide⟩, ⟨_, rfl, by decide⟩⟩

/-- RunEndsAtTheFirstError: the run of one instruction ends there, with fuel just enough; `reset` completes. -/
theorem witness_run :
    run 2 (synBox [(0, 0x01)] 0) = .ended .unimplementedInstruction 1 (synBox [(0, 0x01)] 1) ∧ 1 < 2 ∧
      ∃ t, perform .reset (box [] 0) = .next t :=
  ⟨by decide, by decide, ⟨_, rfl⟩⟩

/-- StepKeepsTheInvariant, HostOperationsKeepTheInvariant: a state with a byte written meets the invariant and steps. -/
theorem witness_invariant :
    (synBox [(0, 0x01)] 0).wf ∧ (∃ t, step (synBox [(0, 0x01)] 0) = .next t) ∧
      ∃ t, perform (.addRomData 0 1 [7]) (synBox [(0, 0x01)] 0) = .next t := by
  refine ⟨⟨fun r hr => ?_, by decide⟩, ⟨_, rfl⟩, ⟨_, rfl⟩⟩
  obtain rfl : r = { start := 0, length := 65536, backing := .ram [(0, 0x01)] } := by
    simpa [synBox, box, State.reset] using hr
  decide

/-- FullyMappedRunsAreSafe. -/
theorem witness_fully_mapped : (synBox [] 0).optab.wf = true ∧ (synBox [] 0).fullyMapped :=
  ⟨by decide, covered_by_ram (mem := []) rfl⟩

end Sys2Proof.Tests
end

section
/-! SUPPORT. The laws of the status byte (R16, R17), and the two statements about it. -/

namespace Sys2Proof.Machine

/-- Each flag as a number is one binary digit. -/
theorem Flags.toNat_le_one (f : Flags) :
    f.n.toNat ≤ 1 ∧ f.v.toNat ≤ 1 ∧ f.b.toNat ≤ 1 ∧ f.d.toNat ≤ 1 ∧ f.i.toNat ≤ 1 ∧ f.z.toNat ≤ 1 ∧ f.c.toNat ≤ 1 :=
  ⟨f.n.toNat_le, f.v.toNat_le, f.b.toNat_le, f.d.toNat_le, f.i.toNat_le, f.z.toNat_le, f.c.toNat_le⟩

/-- The weights of R16 sum to less than 256, so a packed byte is their sum. -/
theorem pack_toNat (f : Flags) :
    (pack f).toNat = 128 * f.n.toNat + 64 * f.v.toNat + 32 + 16 * f.b.toNat + 8 * f.d.toNat + 4 * f.i.toNat
      + 2 * f.z.toNat + f.c.toNat := by
  have hle := f.toNat_le_one
  exact Nat.mod_eq_of_lt (by omega)

/-- A bit of a byte is the binary digit of its number in that place. -/
theorem getLsbD_eq_of_div_mod {v : Byte} {k : Nat} {x : Bool} (h : v.toNat / 2 ^ k % 2 = x.toNat) :
    v.getLsbD k = x := by
  have hbit : v.getLsbD k = decide (x.toNat = 1) := h ▸ Nat.testBit_eq_decide_div_mod_eq
  simpa using hbit

/-- Bit 5 of a packed byte is fixed (R16). -/
theorem pack_getLsbD_five (f : Flags) : (pack f).getLsbD 5 = true := by
  have hle := f.toNat_le_one
  have hsum := pack_toNat f
  exact getLsbD_eq_of_div_mod (by rw [Bool.toNat_true]; omega)

/-- The other seven bits of a packed byte are the flags, in the places where `Unpack` looks for them (R16, R17). -/
theorem unpack_pack (f : Flags) : unpack (pack f) = f := by
  have hle := f.toNat_le_one
  have hsum := pack_toNat f
  rw [unpack, Flags.mk.injEq]
  refine ⟨?_, ?_, ?_, ?_, ?_, ?_, ?_⟩ <;> exact getLsbD_eq_of_div_mod (by omega)

/-- Flipping bit 5 of a byte leaves its other bits. -/
theorem getLsbD_xor_bit_five (v : Byte) {k : Nat} (hk : 5 ≠ k) : (v ^^^ 0x20).getLsbD k = v.getLsbD k := by
  have hmask : (0x20 : Byte).getLsbD k = false := by
    rw [show (0x20 : Byte) = BitVec.twoPow 8 5 from rfl, BitVec.getLsbD_twoPow, decide_eq_false hk, Bool.and_false]
  rw [BitVec.getLsbD_xor, hmask, Bool.xor_false]

/-- Settles O1: the number by `pack_toNat`, bit 5 by `pack_getLsbD_five`; a flag's bit is what `Unpack` reads back. -/
theorem packPutsEachFlagInItsBit : Obligations.PackPutsEachFlagInItsBit := fun f =>
  have hbits := unpack_pack f
  ⟨pack_toNat f, congrArg Flags.n hbits, congrArg Flags.v hbits, pack_getLsbD_five f, congrArg Flags.b hbits,
    congrArg Flags.d hbits, congrArg Flags.i hbits, congrArg Flags.z hbits, congrArg Flags.c hbits⟩

/-- Settles O2: the first part is how `unpack` is defined; none of the seven bits it reads is the flipped one. -/
theorem unpackReadsEachFlagFromItsBit : Obligations.UnpackReadsEachFlagFromItsBit := by
  refine ⟨fun _ => rfl, fun v => ?_⟩
  simp (disch := decide) only [unpack, getLsbD_xor_bit_five]

end Sys2Proof.Machine
end

section
/-! SUPPORT. Pushes on RAM and pulls of words (R12, R130 to R133), and the two statements about them. -/

namespace Sys2Proof.Machine

/-! ## Pulls (R131, R133) -/

/-- On plain memory a word is pulled from the two slots above SP, the low byte from the nearer one (R133). -/
theorem pullWord_of_peek {l h : Byte} {s : State} (hl : s.peek (stackAddr (s.sp + 1)) = some l)
    (hh : s.peek (stackAddr (s.sp + 2)) = some h) : pullWord s = .done (joinBytes h l) (s.setSp (s.sp + 2)) := by
  have htwo : s.sp + 1 + 1 = s.sp + 2 := by rw [BitVec.add_assoc]; rfl
  have hhigh : pullByte (s.setSp (s.sp + 1)) = .done h (s.setSp (s.sp + 2)) := by
    rw [pullByte_of_peek (v := h) (by rwa [State.setSp_sp, State.peek_setSp, htwo]), State.setSp_sp, htwo]
    rfl
  rw [pullWord, pullByte_of_peek hl, Bus.bind_done, hhigh, Bus.bind_done]

/-- Settles O14: the pulls are so defined; on plain memory they are `pullByte_of_peek` and `pullWord_of_peek`. -/
theorem pullReadsAboveTheFreeSlot : Obligations.PullReadsAboveTheFreeSlot :=
  ⟨fun _ => rfl, fun _ _ => pullByte_of_peek, fun _ => rfl, joinBytes_toNat, fun _ _ _ => pullWord_of_peek⟩

/-! ## Pushes on RAM (R130, R132) -/

/-- The next lower slot is another address, also where SP wraps (R12). -/
theorem stackAddr_ne_pred (p : Byte) : stackAddr p ≠ stackAddr (p - 1) := by
  rw [ne_eq, stackAddr_inj]
  bv_omega

section PushOnRam

variable {v : Byte} {s t : State} (hram : s.isRamAt (stackAddr s.sp)) (hpush : pushByte v s = .done () t)

include hram hpush

/-- The state after a push on RAM is the one `pushByte_ram` names. -/
theorem pushByte_ram_state :
    t = (s.setRegions (storeFirst s.regions (stackAddr s.sp) v)).setSp (s.sp - 1) := by
  rw [pushByte_ram hram, Bus.done.injEq] at hpush
  exact hpush.2.symm

/-- The byte pushed is in the slot that was free. -/
theorem pushByte_ram_peek_slot : t.peek (stackAddr s.sp) = some v := by
  rw [pushByte_ram_state hram hpush, State.peek_setSp, State.peek_store_same hram]

/-- RAM stays RAM. -/
theorem pushByte_ram_isRamAt (a : Word) : t.isRamAt a ↔ s.isRamAt a := by
  rw [pushByte_ram_state hram hpush, State.isRamAt_setSp, isRamAt_storeFirst]

/-- Beside SP and the region bytes, a push on RAM changes nothing. -/
theorem pushByte_ram_frame : (t.setSp s.sp).setRegions s.regions = s := by
  rw [pushByte_ram_state hram hpush]
  rfl

end PushOnRam

/-- Two changes of SP and the regions undo in one. -/
theorem State.setSp_setRegions_trans {s u t : State} (hsu : (u.setSp s.sp).setRegions s.regions = s)
    (hut : (t.setSp u.sp).setRegions u.regions = u) : (t.setSp s.sp).setRegions s.regions = s :=
  calc (t.setSp s.sp).setRegions s.regions
      = (((t.setSp u.sp).setRegions u.regions).setSp s.sp).setRegions s.regions := rfl
    _ = s := by rw [hut, hsu]

/-- On RAM a word's two pushes both complete, and the second one meets RAM as the first did. -/
theorem pushWord_ram {w : Word} {s : State} (hhi : s.isRamAt (stackAddr s.sp))
    (hlo : s.isRamAt (stackAddr (s.sp - 1))) :
    ∃ u t, pushByte (hiByte w) s = .done () u ∧ u.isRamAt (stackAddr u.sp) ∧ pushByte (loByte w) u = .done () t ∧
      pushWord w s = .done () t := by
  obtain ⟨u, hu⟩ : ∃ u, pushByte (hiByte w) s = .done () u := ⟨_, pushByte_ram hhi⟩
  have hram : u.isRamAt (stackAddr u.sp) := by rwa [pushByte_ram_isRamAt hhi hu, pushByte_sp hu]
  exact ⟨u, _, hu, hram, pushByte_ram hram, by rw [pushWord, hu, Bus.bind_done, pushByte_ram hram]⟩

/-- Settles O15: the effect on RAM is that of the two pushes, one after the other; the second one leaves the first one's
slot alone because it is another address. -/
theorem pushWordStoresHighThenLow : Obligations.PushWordStoresHighThenLow := by
  refine ⟨fun _ _ => rfl, fun w => ⟨hiByte_toNat w, loByte_toNat w⟩, fun w s hhi hlo => ?_⟩
  obtain ⟨u, t, hu, hram, ht, hw⟩ := pushWord_ram (w := w) hhi hlo
  have hsp : u.sp = s.sp - 1 := pushByte_sp hu
  refine ⟨t, hw, ?high, ?low, fun a ha₁ ha₂ => ?other, ?layout, ?frame, ?sp⟩
  case high => rw [pushByte_peek_other ht (hsp ▸ stackAddr_ne_pred s.sp), pushByte_ram_peek_slot hhi hu]
  case low => rw [← hsp, pushByte_ram_peek_slot hram ht]
  case other => rw [pushByte_peek_other ht (hsp ▸ ha₂), pushByte_peek_other hu ha₁]
  case layout => exact (pushByte_controls ht).layout.trans (pushByte_controls hu).layout
  case frame => exact State.setSp_setRegions_trans (pushByte_ram_frame hhi hu) (pushByte_ram_frame hram ht)
  case sp => rw [pushByte_sp ht, hsp, BitVec.sub_sub]; rfl

end Sys2Proof.Machine
end

section
/-! SUPPORT. Which error an operation raises, and when (R102, R103, R200 to R203, R206), and the three statements about the
errors. -/

namespace Sys2Proof

/-- What the decoder answers for an opcode byte with a handler: the instruction of the byte's entry, with some operand. -/
theorem decode_handler {t : OpTab} {op : Byte} {h : Handler} (hh : (t.entry op).handler = some h)
    {bs rest : List Byte} {i : Instr} (hdec : decode t (op :: bs) = .ok (i, rest)) :
    ∃ b w, i = Machine.entryInstr (t.entry op) op h b w := by
  simp only [decode, hh] at hdec
  split at hdec
  case isFalse => cases hdec
  case isTrue =>
    cases h with
    | h0 p =>
      cases hdec
      exact ⟨0, 0, rfl⟩
    | h1 p =>
      cases bs with
      | nil => cases hdec
      | cons b bs =>
        cases hdec
        exact ⟨b, 0, rfl⟩
    | h2 p =>
      match bs, hdec with
      | l :: h' :: bs, hdec =>
        cases hdec
        exact ⟨0, Machine.joinBytes h' l, rfl⟩

namespace Machine

/-! ## The strict check (R103) -/

/-- The check raises `StackOverflow` exactly on a positive headroom above SP. -/
theorem stackCheck_eq_overflow {h : Int} {s : State} :
    stackCheck h s = some .stackOverflow ↔ s.strict = true ∧ 0 < h ∧ (s.sp.toNat : Int) < h := by
  rcases stackCheck_cases h s with ⟨hc, hroom⟩ | ⟨hc, hover⟩ | ⟨hc, _, hneg, _⟩
  · simpa [hc] using fun hs hpos => (hroom hs).1 hpos
  · simpa [hc] using hover
  · simp [hc, Int.not_lt.mpr hneg.le]

/-- The check raises `StackUnderflow` exactly on a negative headroom that asks for more than the used bytes. -/
theorem stackCheck_eq_underflow {h : Int} {s : State} :
    stackCheck h s = some .stackUnderflow ↔ s.strict = true ∧ h < 0 ∧ (255 - s.sp.toNat : Int) < -h := by
  rcases stackCheck_cases h s with ⟨hc, hroom⟩ | ⟨hc, _, hpos, _⟩ | ⟨hc, hunder⟩
  · simpa [hc] using fun hs hneg => (hroom hs).2 hneg
  · simp [hc, Int.not_lt.mpr hpos.le]
  · simpa [hc] using hunder

theorem stackCheck_ne_unimplemented (h : Int) (s : State) : stackCheck h s ≠ some .unimplementedInstruction := by
  rcases stackCheck_cases h s with ⟨hc, _⟩ | ⟨hc, _⟩ | ⟨hc, _⟩ <;> simp [hc]

/-! ## What a step raises (R102, R103) -/

/-- Reading bytes changes the I/O history at most (R50). -/
theorem readBytes_events (n : Nat) :
    ∀ {a : Word} {s t : State} {bs : List Byte}, readBytes n a s = .done bs t → t = s.setEvents t.events := by
  induction n with
  | zero =>
    intro a s t bs h
    cases h
    rfl
  | succ n ih =>
    intro a s t bs h
    obtain ⟨v, s1, hv, h⟩ := Bus.bind_eq_done.mp h
    obtain ⟨vs, s2, hvs, h⟩ := Bus.bind_eq_done.mp h
    cases h
    rw [ih hvs, busRead_events hv]
    rfl

/-- Reading the opcode byte leaves the CORE's own state. -/
theorem busRead_sameCore {a : Word} {v : Byte} {s t : State} (h : busRead a s = .done v t) : sameCore s t := by
  rw [sameCore, busRead_events h, State.setEvents_setEvents, State.setEvents_self]

/-- The error that lines 2 and 3 of R100 raise for an opcode with this descriptor: it has no handler (R102), or the
strict check fails (R103). -/
def opcodeError (d : Descriptor) (s : State) : Option CoreError :=
  match d.handler with
  | none => some .unimplementedInstruction
  | some _ => stackCheck d.headroom s

theorem opcodeError_absent {d : Descriptor} (hd : d.handler = none) (s : State) :
    opcodeError d s = some .unimplementedInstruction := by
  simp only [opcodeError, hd]

theorem opcodeError_present {d : Descriptor} (hd : d.handler ≠ none) (s : State) :
    opcodeError d s = stackCheck d.headroom s := by
  obtain ⟨h, hh⟩ := Option.ne_none_iff_exists'.mp hd
  simp only [opcodeError, hh]

theorem opcodeError_eq_unimplemented {d : Descriptor} {s : State} :
    opcodeError d s = some .unimplementedInstruction ↔ d.handler = none := by
  refine ⟨fun h => ?_, fun hd => opcodeError_absent hd s⟩
  by_contra hd
  exact stackCheck_ne_unimplemented _ _ (opcodeError_present hd s ▸ h)

/-- Any other error is the strict check's. -/
theorem opcodeError_eq_stackError {d : Descriptor} {s : State} {e : CoreError} (he : e ≠ .unimplementedInstruction) :
    opcodeError d s = some e ↔ d.handler ≠ none ∧ stackCheck d.headroom s = some e := by
  by_cases hd : d.handler = none
  · simp [opcodeError_absent hd, hd, he.symm]
  · simp [opcodeError_present hd, hd]

/-- There is no error exactly when there is a handler and the check passes. -/
theorem opcodeError_eq_none {d : Descriptor} {s : State} :
    opcodeError d s = none ↔ ∃ h, d.handler = some h ∧ stackCheck d.headroom s = none := by
  cases hd : d.handler <;> simp [opcodeError, hd]

/-- An instruction decoded for such an opcode raises no error, whatever I/O its fetch made: its own strict check passes as
the one before it did, and its effect is made of bus accesses. -/
theorem exec_decoded_ne_raised {s : State} {op : Byte} (hwf : s.optab.wf = true)
    (hnone : opcodeError (s.optab.entry op) s = none) {bs : List Byte} {r : Instr × List Byte}
    (hdec : decode s.optab (op :: bs) = .ok r) (es : List IoEvent) (e : CoreError) (t : State) :
    exec r.1 (s.setEvents es) ≠ .fault (.raised e t) := by
  obtain ⟨h, hh, hcheck⟩ := opcodeError_eq_none.mp hnone
  obtain ⟨b, w, hi⟩ := decode_handler hh hdec
  have hroom : roomFor (s.optab.entry op).headroom (s.setEvents es) := stackCheck_eq_none.mp hcheck
  rw [hi, exec_entryInstr (State.setEvents_optab es s ▸ rfl) hh (OpTab.entry_length hwf hh), runInstr_room hroom]
  exact Bus.toOutcome_ne_raised _ _ _

section Step

variable {s s1 : State} {op : Byte} (hwf : s.optab.wf = true) (hread : busRead s.pc s = .done op s1)

include hwf hread

/-- An error of the opcode ends the step right after the opcode byte is read. -/
theorem step_of_opcodeError {e : CoreError} (he : opcodeError (s.optab.entry op) s = some e) :
    step s = .fault (.raised e s1) := by
  rw [step, if_pos hwf, fetch_eq, hread]
  cases hh : (s.optab.entry op).handler with
  | none =>
    obtain rfl := Option.some.inj ((opcodeError_absent hh s).symm.trans he)
    simp only [hh]
    rfl
  | some h =>
    rw [opcodeError_present (by simp [hh])] at he
    simp only [hh, he]

/-- Past lines 2 and 3 of R100 no error is raised: the fetch raises none, nor does the instruction fetched. -/
theorem step_ne_raised (hnone : opcodeError (s.optab.entry op) s = none) (e : CoreError) (t : State) :
    step s ≠ .fault (.raised e t) := by
  obtain ⟨h, hh, hcheck⟩ := opcodeError_eq_none.mp hnone
  rw [step, if_pos hwf, fetch_eq, hread]
  simp only [hh, hcheck]
  cases hbs : readBytes ((s.optab.entry op).length - 1) (codeAddr s.pc 1) s1 with
  | miss a => simp
  | done bs s2 =>
    simp only
    cases hdec : decode s.optab (op :: bs) with
    | error x => simp
    | ok r =>
      have hs2 : s2 = s.setEvents s2.events := by
        rw [readBytes_events _ hbs, busRead_events hread]
        rfl
      rw [hs2]
      exact exec_decoded_ne_raised hwf hnone hdec _ e t

end Step

/-- The errors a step raises, and the state it leaves: that after the opcode byte was read. -/
theorem step_eq_raised {s t : State} {e : CoreError} (hwf : s.optab.wf = true) :
    step s = .fault (.raised e t) ↔
      ∃ op, busRead s.pc s = .done op t ∧ opcodeError (s.optab.entry op) s = some e := by
  constructor
  · intro h
    cases hread : busRead s.pc s with
    | miss a => simp [step, hwf, fetch_eq, hread] at h
    | done op s1 =>
      cases herr : opcodeError (s.optab.entry op) s with
      | none => exact absurd h (step_ne_raised hwf hread herr e t)
      | some e' =>
        rw [step_of_opcodeError hwf hread herr] at h
        cases h
        exact ⟨op, rfl, herr⟩
  · rintro ⟨op, hread, herr⟩
    exact step_of_opcodeError hwf hread herr

/-! ## What the other operations of the host raise (R202, R206) -/

/-- An interrupt raises `StackOverflow` alone, with fewer than three free bytes in strict mode, and changes nothing. -/
theorem interrupt_eq_raised {vector : Word} {s t : State} {e : CoreError} :
    interrupt vector s = .fault (.raised e t) ↔ e = .stackOverflow ∧ t = s ∧ s.strict = true ∧ s.sp.toNat < 3 := by
  rcases interrupt_cases vector s with ⟨hfew, hd⟩ | ⟨hroom, hd⟩
  · simp [hd, hfew, eq_comm]
  · simp [hd, hroom, Bus.toOutcome_ne_raised]

/-- Only a step and an interrupt raise an error. -/
theorem perform_raised {op : HostOp} {s t : State} {e : CoreError} (h : perform op s = .fault (.raised e t)) :
    op = .step ∨ (op = .irq ∨ op = .nmi) ∧ e = .stackOverflow := by
  cases op with
  | step => exact .inl rfl
  | irq => exact .inr ⟨.inl rfl, (interrupt_eq_raised.mp h).1⟩
  | nmi => exact .inr ⟨.inr rfl, (interrupt_eq_raised.mp h).1⟩
  | reset => exact absurd h (Bus.toOutcome_ne_raised _ _ _)
  | addRomData start length bytes =>
    rw [perform] at h
    split at h <;> cases h
  | init | addRam | addRomFile | addIo | setStrict | setTrace => cases h

/-! ## The statements -/

/-- Settles O20: the illegal class raises by definition; for a step, of the opcode's errors this one means no handler. -/
theorem unimplementedInstructionCondition : Obligations.UnimplementedInstructionCondition := by
  refine ⟨fun _ _ => rfl, fun s t hwf => ?_⟩
  simp only [step_eq_raised hwf, opcodeError_eq_unimplemented]
  exact exists_congr fun op => and_congr_right fun hread => (and_iff_right (busRead_sameCore hread)).symm

/-- Settles O21: of the opcode's errors this one is the strict check's on a positive headroom; an interrupt raises it by
its own check, and nothing made of bus accesses raises any error. -/
theorem stackOverflowCondition : Obligations.StackOverflowCondition := by
  refine ⟨fun s t hwf => ?step, fun op s t hop => ?interrupt, fun op s t h => ?others, fun v w s t => ?stackUnit⟩
  case step =>
    simp only [step_eq_raised hwf, opcodeError_eq_stackError (e := .stackOverflow) (by decide), stackCheck_eq_overflow]
    exact exists_congr fun op => and_congr_right fun hread => (and_iff_right (busRead_sameCore hread)).symm
  case interrupt =>
    rcases hop with rfl | rfl <;> exact interrupt_eq_raised.trans (and_iff_right rfl)
  case others => exact (perform_raised h).imp_right And.left
  case stackUnit => exact ⟨Bus.toOutcome_ne_raised _ _ _, Bus.toOutcome_ne_raised _ _ _,
    Bus.toOutcome_ne_raised _ _ _, Bus.toOutcome_ne_raised _ _ _⟩

/-- Settles O22: of the opcode's errors this one is the strict check's on a negative headroom; an interrupt raises the
other stack error only. -/
theorem stackUnderflowCondition : Obligations.StackUnderflowCondition := by
  refine ⟨fun s t hwf => ?step, fun op s t h => ?others⟩
  case step =>
    simp only [step_eq_raised hwf, opcodeError_eq_stackError (e := .stackUnderflow) (by decide),
      stackCheck_eq_underflow]
  case others => exact (perform_raised h).resolve_right fun hinterrupt => nomatch hinterrupt.2

end Machine

end Sys2Proof
end

section
/-! SUPPORT. The frame an interrupt pushes (R206 to R208), and the statement about it. -/

namespace Sys2Proof.Machine

/-! ## Addresses and flags -/

/-- An address above the stack page is no slot of it (R12). -/
theorem ne_stackAddr_of_le {a : Word} (ha : 0x200 ≤ a.toNat) (p : Byte) : a ≠ stackAddr p := by
  have hp := p.isLt
  rintro rfl
  rw [stackAddr_toNat] at ha
  omega

/-- A push changes no flag. -/
theorem pushByte_flags {v : Byte} {s t : State} (h : pushByte v s = .done () t) : t.flags = s.flags := by
  rw [pushByte_eq] at h
  obtain ⟨_, u, hu, hk⟩ := Bus.bind_eq_done.mp h
  cases hk
  rcases busWrite_frame hu with rfl | rfl | ⟨_, _, rfl⟩ <;> rfl

theorem pushWord_flags {w : Word} {s t : State} (h : pushWord w s = .done () t) : t.flags = s.flags := by
  obtain ⟨_, u, hu, ht⟩ := Bus.bind_eq_done.mp h
  rw [pushByte_flags ht, pushByte_flags hu]

/-! ## Three pushes on RAM (R206) -/

/-- A word pushed on RAM leaves RAM what it was. -/
theorem pushWord_ram_isRamAt {w : Word} {s t : State} (hhi : s.isRamAt (stackAddr s.sp))
    (hlo : s.isRamAt (stackAddr (s.sp - 1))) (h : pushWord w s = .done () t) (a : Word) :
    t.isRamAt a ↔ s.isRamAt a := by
  obtain ⟨u, t', hu, hram, ht', hw⟩ := pushWord_ram (w := w) hhi hlo
  cases hw.symm.trans h
  rw [pushByte_ram_isRamAt hram ht', pushByte_ram_isRamAt hhi hu]

/-- `t` is `s` with a word and then a byte pushed on the three slots from SP down, and nothing else changed. -/
structure FramePushed (w : Word) (v : Byte) (s t : State) : Prop where
  high : t.peek (stackAddr s.sp) = some (hiByte w)
  low : t.peek (stackAddr (s.sp - 1)) = some (loByte w)
  byte : t.peek (stackAddr (s.sp - 2)) = some v
  other : ∀ a, a ≠ stackAddr s.sp → a ≠ stackAddr (s.sp - 1) → a ≠ stackAddr (s.sp - 2) → t.peek a = s.peek a
  sp : t.sp = s.sp - 3
  layout : t.layout = s.layout
  rest : (t.setSp s.sp).setRegions s.regions = s

/-- With RAM behind the three slots the frame is pushed. -/
theorem pushFrame_ram (w : Word) (v : Byte) {s : State} (hhi : s.isRamAt (stackAddr s.sp))
    (hlo : s.isRamAt (stackAddr (s.sp - 1))) (hbyte : s.isRamAt (stackAddr (s.sp - 2))) :
    ∃ u t, pushWord w s = .done () u ∧ pushByte v u = .done () t ∧ FramePushed w v s t := by
  obtain ⟨u, hu, hhigh, hlow, hother, hlayout, hrest, hsp⟩ := pushWordStoresHighThenLow.2.2 w s hhi hlo
  have hram : u.isRamAt (stackAddr u.sp) := by rwa [pushWord_ram_isRamAt hhi hlo hu, hsp]
  obtain ⟨t, ht⟩ : ∃ t, pushByte v u = .done () t := ⟨_, pushByte_ram hram⟩
  have hne : s.sp - 1 ≠ s.sp - 2 ∧ s.sp ≠ s.sp - 2 := by constructor <;> bv_omega
  have hkeep : ∀ a, a ≠ stackAddr (s.sp - 2) → t.peek a = u.peek a := fun a ha =>
    pushByte_peek_other ht (hsp ▸ ha)
  exact ⟨u, t, hu, ht, {
    high := by rw [hkeep _ (mt stackAddr_inj.mp hne.2), hhigh]
    low := by rw [hkeep _ (mt stackAddr_inj.mp hne.1), hlow]
    byte := by rw [← hsp, pushByte_ram_peek_slot hram ht]
    other := fun a ha₁ ha₂ ha₃ => by rw [hkeep a ha₃, hother a ha₁ ha₂]
    sp := by rw [pushByte_sp ht, hsp, BitVec.sub_sub]; rfl
    layout := (pushByte_controls ht).layout.trans hlayout
    rest := State.setSp_setRegions_trans hrest (pushByte_ram_frame hram ht) }⟩

/-! ## Interrupt entry (R206 to R208) -/

/-- The status byte pushed is that of the flags before the interrupt: pushing PC changes none. -/
theorem enterInterrupt_eq (vector : Word) (s : State) :
    enterInterrupt vector s =
      (pushWord s.pc s).bind fun _ s1 => (pushByte (pack s.flags) s1).bind fun _ s2 =>
        (readVector vector (s2.setFlag .i true)).bind fun w s3 => .done () (s3.setPc w) := by
  rw [enterInterrupt]
  cases hw : pushWord s.pc s with
  | miss a => rfl
  | done _ s1 => rw [Bus.bind_done, Bus.bind_done, pushWord_flags hw]

/-- With the frame on RAM and the vector, above the stack page, in plain memory, an interrupt pushes its frame, sets I and
takes PC from the vector. -/
theorem enterInterrupt_ram {vector : Word} {s : State} {l h : Byte} (hhi : s.isRamAt (stackAddr s.sp))
    (hlo : s.isRamAt (stackAddr (s.sp - 1))) (hbyte : s.isRamAt (stackAddr (s.sp - 2)))
    (hv : 0x200 ≤ vector.toNat) (hv' : 0x200 ≤ (vector + 1).toNat)
    (hl : s.peek vector = some l) (hh : s.peek (vector + 1) = some h) :
    ∃ t, FramePushed s.pc (pack s.flags) s t ∧ t.flags = s.flags ∧
      enterInterrupt vector s = .done () ((t.setFlag .i true).setPc (joinBytes h l)) := by
  obtain ⟨u, t, hu, ht, hframe⟩ := pushFrame_ram s.pc (pack s.flags) hhi hlo hbyte
  have habove : ∀ a : Word, 0x200 ≤ a.toNat → (t.setFlag .i true).peek a = s.peek a := fun a ha =>
    hframe.other a (ne_stackAddr_of_le ha _) (ne_stackAddr_of_le ha _) (ne_stackAddr_of_le ha _)
  refine ⟨t, hframe, (pushByte_flags ht).trans (pushWord_flags hu), ?_⟩
  rw [enterInterrupt_eq, hu, Bus.bind_done, ht, Bus.bind_done,
    readVector_of_peek ((habove _ hv).trans hl) ((habove _ hv').trans hh), Bus.bind_done]

/-- `irq` and `nmi` are one sequence, each with its vector, and both bytes of either vector lie above the stack page. -/
theorem perform_interrupt {op : HostOp} {vector : Word}
    (hop : (op = .irq ∧ vector = 0xFFFE) ∨ (op = .nmi ∧ vector = 0xFFFA)) :
    (∀ s, perform op s = interrupt vector s) ∧ 0x200 ≤ vector.toNat ∧ 0x200 ≤ (vector + 1).toNat := by
  rcases hop with ⟨rfl, rfl⟩ | ⟨rfl, rfl⟩ <;> exact ⟨fun _ => rfl, by decide, by decide⟩

/-- With the stack it needs, or out of strict mode, an interrupt is let in. -/
theorem interrupt_of_room {s : State} (hroom : ¬(s.strict = true ∧ s.sp.toNat < 3)) (vector : Word) :
    interrupt vector s = (enterInterrupt vector s).toOutcome := if_neg hroom

/-- Settles O49: the refusal is `interrupt_eq_raised`; let in, an interrupt is `enterInterrupt`, which on RAM pushes its
frame and then writes I and PC only. -/
theorem interruptPushesItsFrame : Obligations.InterruptPushesItsFrame := by
  intro op vector s hop
  obtain ⟨hperform, hv, hv'⟩ := perform_interrupt hop
  rw [hperform]
  refine ⟨fun hfew => interrupt_eq_raised.mpr ⟨rfl, rfl, hfew⟩,
    fun hroom => by rw [interrupt_of_room hroom, enterInterrupt_eq], fun l h hroom hhi hlo hbyte hl hh => ?_⟩
  obtain ⟨t, hframe, hflags, hd⟩ := enterInterrupt_ram hhi hlo hbyte hv hv' hl hh
  refine ⟨(t.setFlag .i true).setPc (joinBytes h l), by rw [interrupt_of_room hroom, hd, Bus.toOutcome_done],
    hframe.high, hframe.low, hframe.byte, hframe.other, hframe.sp, joinBytes_toNat h l, ?flags, hframe.layout, ?rest⟩
  case flags => rw [State.setPc_flags, State.setFlag_flags, hflags, Flags.set]
  case rest => exact congrArg (fun u => (u.setPc s.pc).setFlags s.flags) hframe.rest

end Sys2Proof.Machine
end

section
/-! SUPPORT. The reads and the writes of `reset` (R241), and the statement about it. -/

namespace Sys2Proof.Machine

/-- `reset` is the two reads of its vector, low byte first, and then its list of writes (R53, R241). -/
theorem resetCore_eq (s : State) :
    resetCore s =
      (busRead 0xFFFC s).bind fun l s1 => (busRead 0xFFFD s1).bind fun h s2 =>
        .done () (s2.afterReset (joinBytes h l)) := by
  have hlow : Config.vecReset = 0xFFFC := rfl
  have hhigh : Config.vecReset + 1 = 0xFFFD := rfl
  rw [resetCore, readVector, hhigh, hlow]
  simp only [Bus.bind_assoc, Bus.bind_done]

/-- With the vector in plain memory the reads leave the state alone, and `reset` is its list of writes. -/
theorem resetCore_of_peek {s : State} {l h : Byte} (hl : s.peek 0xFFFC = some l) (hh : s.peek 0xFFFD = some h) :
    resetCore s = .done () (s.afterReset (joinBytes h l)) := by
  rw [resetCore_eq, busRead_of_peek hl, Bus.bind_done, busRead_of_peek hh, Bus.bind_done]

/-- Settles O51: the sequence is `resetCore_eq`; on plain memory the state after is `State.afterReset`, which writes the
registers and flags only; nothing made of bus accesses raises an error. -/
theorem resetWritesItsListAndNothingElse : Obligations.ResetWritesItsListAndNothingElse := by
  refine ⟨fun s => congrArg Bus.toOutcome (resetCore_eq s), fun s l h hl hh => ?plain,
    fun _ _ _ => Bus.toOutcome_ne_raised _ _ _⟩
  case plain =>
    have hreset : perform .reset s = .next (s.afterReset (joinBytes h l)) :=
      congrArg Bus.toOutcome (resetCore_of_peek hl hh)
    exact ⟨_, hreset, joinBytes_toNat h l, rfl, rfl, rfl, rfl, rfl, rfl, rfl, rfl, rfl, rfl⟩

end Sys2Proof.Machine
end

section
/-! SUPPORT. A step as the sequence of R100 driven by the table, and what follows from it: what a step can do, the
invariant, safe runs, refusals, the end of a run. -/

namespace Sys2Proof.Machine

/-! ## Past the strict check (R100 lines 4 and 5) -/

/-- The operand reads do not see PC, so it may be advanced after them as well as before (log 27). -/
theorem readOperand_setPc (h : Handler) (pc0 v : Word) (s : State) :
    readOperand h pc0 (s.setPc v) = (readOperand h pc0 s).bind fun w t => .done w (t.setPc v) := by
  cases h with
  | h0 p => rfl
  | h1 p => simp only [readOperand, busRead_setPc, Bus.bind_assoc, Bus.bind_done]
  | h2 p => simp only [readOperand, busRead_setPc, Bus.bind_assoc, Bus.bind_done]

theorem readOperand_from (h : Handler) (pc0 : Word) (s : State) : (readOperand h pc0 s).From s := by
  cases h with
  | h0 p => exact .done (.refl _)
  | h1 p => exact (busRead_from _ _).bind fun _ _ _ => .done (.refl _)
  | h2 p => exact (busRead_from _ _).bind fun _ _ _ => (busRead_from _ _).bind fun _ _ _ => .done (.refl _)

theorem invoke_from (h : Handler) (operand : Word) (s : State) : (invoke h operand s).From s :=
  (runProg_from _ _ _ _).bind fun _ _ _ => .done (.refl _)

section Step

variable {s s1 : State} {op : Byte} {h : Handler} (hwf : s.optab.wf = true)
  (hh : (s.optab.entry op).handler = some h) (hcheck : stackCheck (s.optab.entry op).headroom s = none)

include hwf hh hcheck

/-- The instruction read for such an opcode runs the table's handler, whatever I/O its fetch made. -/
theorem exec_fetched {t : State} (ht : t = s.setEvents t.events) (b : Byte) (w : Word) :
    exec (entryInstr (s.optab.entry op) op h b w) t =
      (invoke h (entryOperand h b w) (t.setPc (codeAddr s.pc h.length))).toOutcome := by
  have hroom : roomFor (s.optab.entry op).headroom t := by
    rw [ht]
    exact stackCheck_eq_none.mp hcheck
  have hentry : t.optab.entry op = s.optab.entry op := by rw [ht, State.setEvents_optab]
  have hpc : t.pc = s.pc := by rw [ht, State.setEvents_pc]
  rw [exec_entryInstr hentry hh (OpTab.entry_length hwf hh), runInstr_room hroom, hpc]

/-- With a handler and its headroom there, a step reads the handler's operand and invokes it past the instruction. -/
theorem step_of_room (hread : busRead s.pc s = .done op s1) :
    step s = ((readOperand h s.pc s1).bind fun w s2 => invoke h w (s2.setPc (codeAddr s.pc h.length))).toOutcome := by
  have hlen := OpTab.entry_length hwf hh
  have hs1 := busRead_events hread
  have hnext : s.pc + 1 + 1 = s.pc + 2 := BitVec.add_assoc ..
  have hone : codeAddr s.pc 1 = s.pc + 1 := rfl
  rw [step, if_pos hwf, fetch_eq, hread]
  simp only [hh, hcheck, hlen]
  cases h with
  | h0 p =>
    simp only [Handler.length, decode_h0 hh hlen]
    exact exec_fetched hwf hh hcheck hs1 0 0
  | h1 p =>
    simp only [Handler.length, Nat.reduceSub, readBytes_one, readOperand, hone]
    cases hb : busRead (s.pc + 1) s1 with
    | miss a => rfl
    | done b s2 =>
      have hs2 : s2 = s.setEvents s2.events := by
        rw [busRead_events hb, hs1]
        rfl
      simp only [Bus.bind_done, decode_h1 hh hlen]
      exact exec_fetched hwf hh hcheck hs2 b 0
  | h2 p =>
    simp only [Handler.length, Nat.reduceSub, readBytes_two, readOperand, hone, hnext]
    cases hl : busRead (s.pc + 1) s1 with
    | miss a => rfl
    | done l s2 =>
      simp only [Bus.bind_done]
      cases hu : busRead (s.pc + 2) s2 with
      | miss a => rfl
      | done u s3 =>
        have hs3 : s3 = s.setEvents s3.events := by
          rw [busRead_events hu, busRead_events hl, hs1]
          rfl
        simp only [Bus.bind_done, decode_h2 hh hlen]
        exact exec_fetched hwf hh hcheck hs3 0 (joinBytes u l)

end Step

/-- Settles O19: both read the opcode byte first; without a handler or without its headroom both raise the same error,
and past that both read the handler's operand and invoke it, `step` setting PC after the reads and the sequence
before. -/
theorem stepIsTheTableDrivenSequence : Obligations.StepIsTheTableDrivenSequence := by
  intro s hwf
  cases hread : busRead s.pc s with
  | miss a => simp only [tableStep, step, fetch_eq, hread, hwf, if_true]
  | done op s1 =>
    cases hh : (s.optab.entry op).handler with
    | none =>
      rw [step_of_opcodeError hwf hread (opcodeError_absent hh s)]
      simp only [tableStep, hread, hh, raise]
    | some h =>
      simp only [tableStep, hread, hh, ← stackCheck_eq_overflow, ← stackCheck_eq_underflow]
      cases hcheck : stackCheck (s.optab.entry op).headroom s with
      | none =>
        rw [step_of_room hwf hh hcheck hread, readOperand_setPc, OpTab.entry_length hwf hh]
        simp only [reduceCtorEq, if_false, Bus.bind_assoc, Bus.bind_done]
        rfl
      | some e =>
        rw [step_of_opcodeError (e := e) hwf hread (by simp [opcodeError, hh, hcheck])]
        cases e with
        | unimplementedInstruction => exact absurd hcheck (stackCheck_ne_unimplemented _ _)
        | stackOverflow => rfl
        | stackUnderflow => rfl

/-! ## What a step can do -/

/-- Everything a step can do under a well-formed table: it raises an error, or it is made of bus accesses and register
writes. -/
theorem step_cases {s : State} (hwf : s.optab.wf = true) :
    (∃ e t, step s = .fault (.raised e t)) ∨ ∃ r : Bus Unit, r.From s ∧ step s = r.toOutcome := by
  cases hread : busRead s.pc s with
  | miss a =>
    have hmiss : (Bus.miss a : Bus Byte).From s := hread ▸ busRead_from s.pc s
    refine .inr ⟨.miss a, ⟨nofun, fun hm => ?_⟩, by simp only [step, fetch_eq, hread, hwf, if_true, Bus.toOutcome_miss]⟩
    obtain ⟨v, t, h⟩ := hmiss.completes hm
    exact nomatch h
  | done op s1 =>
    have hlater := busRead_later hread
    cases herr : opcodeError (s.optab.entry op) s with
    | some e => exact .inl ⟨e, s1, step_of_opcodeError hwf hread herr⟩
    | none =>
      obtain ⟨h, hh, hcheck⟩ := opcodeError_eq_none.mp herr
      refine .inr ⟨_, ?_, step_of_room hwf hh hcheck hread⟩
      exact .after hlater ((readOperand_from _ _ _).bind fun w s2 _ =>
        .after (t := s2.setPc (codeAddr s.pc h.length)) (.of_registers rfl rfl rfl rfl rfl) (invoke_from h w _))

theorem step_illFormed {s : State} (hwf : ¬s.optab.wf = true) : step s = .refused .illFormedOptab := if_neg hwf

/-- A step that completes is made of bus accesses and register writes. -/
theorem step_later {s t : State} (h : step s = .next t) : Later s t := by
  by_cases hwf : s.optab.wf = true
  · rcases step_cases hwf with ⟨e, u, hd⟩ | ⟨r, hr, hd⟩
    · rw [hd] at h
      cases h
    · obtain ⟨v, hv⟩ := Bus.toOutcome_eq_next.mp (hd ▸ h)
      exact hr.later hv
  · rw [step_illFormed hwf] at h
    cases h

/-- What is made of bus accesses and register writes keeps the invariant. -/
theorem Later.wf {s t : State} (h : Later s t) (hs : s.wf) : t.wf := by
  obtain ⟨hregions, htable⟩ := hs
  exact ⟨h.regions_wf hregions, by rw [h.controls.optab, htable]⟩

/-- Settles O57: a completed step is made of bus accesses and register writes. -/
theorem stepKeepsTheInvariant : Obligations.StepKeepsTheInvariant := fun _ _ hs h => (step_later h).wf hs

/-- Settles O30: a completed step is made of bus accesses and register writes. -/
theorem stepKeepsControlsAndLayout : Obligations.StepKeepsControlsAndLayout := fun _ _ h =>
  ⟨(step_later h).controls, (step_later h).events⟩

/-- Settles O27: a handler's program is made of bus accesses and register writes. -/
theorem handlersKeepControlsAndLayout : Obligations.HandlersKeepControlsAndLayout := fun h w s _ hd =>
  ⟨((invoke_from h w s).later hd).controls, ((invoke_from h w s).later hd).events⟩

/-- Settles O59: by induction on the length of the run; with every address covered a step that raises nothing
completes, and coverage and table are kept. -/
theorem fullyMappedRunsAreSafe : Obligations.FullyMappedRunsAreSafe := by
  intro n
  induction n with
  | zero => exact fun _ _ _ => trivial
  | succ n ih =>
    intro s hwf hm
    rcases step_cases hwf with ⟨e, t, hd⟩ | ⟨r, hr, hd⟩
    · rw [safeFor, hd]
      exact ⟨trivial, trivial⟩
    · obtain ⟨v, t, hv⟩ := hr.completes hm
      have hlater := hr.later hv
      rw [safeFor, hd, hv, Bus.toOutcome_done]
      exact ⟨trivial, ih t (by rw [hlater.controls.optab, hwf]) (hlater.fullyMapped hm)⟩

/-- Settles O24: under a well-formed table a step ends in an error or as bus accesses do, and neither is a refusal. -/
theorem stepRefusesOnlyIllFormedTables : Obligations.StepRefusesOnlyIllFormedTables := by
  intro s
  cases hwf : s.optab.wf with
  | false => exact ⟨fun _ => rfl, fun _ => ⟨_, step_illFormed (by simp [hwf])⟩⟩
  | true =>
    rcases step_cases hwf with ⟨e, t, hd⟩ | ⟨r, _, hd⟩
    · simp [hd]
    · simp [hd, Bus.toOutcome_ne_refused]

/-- Settles O23: an error is raised in the state right after the opcode byte was read. -/
theorem stepErrorChangesNothing : Obligations.StepErrorChangesNothing := by
  intro s t e h
  have hwf : s.optab.wf = true := by
    by_contra hwf
    rw [step_illFormed hwf] at h
    cases h
  obtain ⟨op, hread, _⟩ := (step_eq_raised hwf).mp h
  refine ⟨busRead_sameCore hread, (busRead_frame hread).imp_right ?history, fun v hv => ?plain⟩
  case history =>
    rintro ⟨fn, handle, rfl⟩
    exact ⟨fn, handle, op, rfl⟩
  case plain =>
    rw [busRead_of_peek hv, Bus.done.injEq] at hread
    exact hread.2.symm

/-! ## The generic rows -/

/-- An entry of the format, with its headroom there and every address covered, completes with its handler's own
effect. -/
theorem runEntry_completes {n : Nat} {op : Byte} {s : State} {h : Handler} (hm : s.fullyMapped)
    (hroom : roomFor (s.optab.entry op).headroom s) (hh : (s.optab.entry op).handler = some h)
    (hlen : (s.optab.entry op).length = n) (hn : h.length = n) (w : Word) :
    ∃ t, invoke h w (s.setPc (codeAddr s.pc n)) = .done () t ∧ runEntry n op w s = .next t := by
  obtain ⟨_, t, ht⟩ := (invoke_from h w (s.setPc (codeAddr s.pc n))).completes hm
  refine ⟨t, ht, ?_⟩
  rcases runEntry_cases n op w s with ⟨hnone, _⟩ | ⟨h', hh', ⟨_, _, hrun⟩ | ⟨hformat, _⟩⟩
  · simp [hh] at hnone
  · obtain rfl := Option.some.inj (hh.symm.trans hh')
    rw [hrun, runInstr_room hroom, ht, Bus.toOutcome_done]
  · obtain rfl := Option.some.inj (hh.symm.trans hh')
    exact absurd ⟨hlen, hn⟩ hformat

/-- Settles O25: each format is `runEntry_completes` with the format's operand. -/
theorem genericFormatsComplete : Obligations.GenericFormatsComplete := fun _ _ hm hroom =>
  ⟨fun _ hh hlen => runEntry_completes hm hroom hh hlen rfl 0,
    fun _ b hh hlen => runEntry_completes hm hroom hh hlen rfl (zext16 b),
    fun _ w hh hlen => runEntry_completes hm hroom hh hlen rfl w⟩

theorem runInstr_stop {n : Nat} {k : Int} {s : State} {e : CoreError} (h : stackCheck k s = some e)
    (effect : State → Bus Unit) : runInstr n k effect s = .fault (.raised e s) := by
  simp only [runInstr, h, raise]

/-- Settles O26: a generic row runs its entry, which without a handler is the error, in another format the refusal,
and in its own format an instruction, which is never refused. -/
theorem genericFormatsStop : Obligations.GenericFormatsStop := by
  intro n op w s i hi
  obtain ⟨w', hexec⟩ : ∃ w', exec i s = runEntry n op w' s := by
    rcases hi with ⟨rfl, rfl⟩ | ⟨rfl, b, rfl⟩ | ⟨rfl, rfl⟩
    · exact ⟨0, rfl⟩
    · exact ⟨zext16 b, rfl⟩
    · exact ⟨w, rfl⟩
  rw [hexec]
  rcases runEntry_cases n op w' s with ⟨hnone, hrun⟩ | ⟨h, hh, ⟨hlen, hn, hrun⟩ | ⟨hformat, hrun⟩⟩
  · simp [hnone, hrun]
  · have hrefused := runInstr_ne_refused n (s.optab.entry op).headroom (invoke h w') s
    simp only [hh, hlen, hn, hrun, Option.some.injEq, reduceCtorEq, false_implies, true_and, ne_eq, not_true_eq_false,
      or_self, forall_eq', hrefused, true_implies]
    exact fun e he => runInstr_stop he _
  · refine ⟨fun hnone => by simp [hh] at hnone, fun h' hh' => ?_⟩
    obtain rfl := Option.some.inj (hh.symm.trans hh')
    exact ⟨iff_of_true (not_and_or.mp hformat) hrun, fun hlen hn => absurd ⟨hlen, hn⟩ hformat⟩

/-! ## The end of a run (R110, R111) -/

/-- `k` steps from `s` answer `OK`, and the next one raises the error. -/
def EndsAfter (e : CoreError) (t : State) (k : Nat) (s : State) : Prop :=
  ∃ u, Host.Core.run Sys2Proof.core k s = .next u ∧ step u = .fault (.raised e t)

theorem endsAfter_zero {e : CoreError} {t s : State} : EndsAfter e t 0 s ↔ step s = .fault (.raised e t) :=
  ⟨fun ⟨_, hrun, h⟩ => by cases hrun; exact h, fun h => ⟨s, rfl, h⟩⟩

theorem endsAfter_succ {e : CoreError} {t s : State} {k : Nat} :
    EndsAfter e t (k + 1) s ↔ ∃ s1, step s = .next s1 ∧ EndsAfter e t k s1 := by
  have hcore : Sys2Proof.core.step s = step s := rfl
  simp only [EndsAfter, Host.Core.run, hcore]
  cases hstep : step s with
  | next s1 => exact ⟨fun h => ⟨s1, rfl, h⟩, fun ⟨s2, hs, h⟩ => by cases hs; exact h⟩
  | fault f => simp
  | refused r => simp

/-- A run that has counted `n` steps ends after `k` more, `k` below the fuel, where the step after them raises the
error. -/
theorem runFrom_eq_ended {fuel : Nat} : ∀ {n m : Nat} {s t : State} {e : CoreError},
    runFrom fuel n s = .ended e m t ↔ ∃ k < fuel, m = n + k ∧ EndsAfter e t k s := by
  induction fuel with
  | zero => simp [runFrom]
  | succ fuel ih =>
    intro n m s t e
    rw [runFrom, Nat.exists_lt_succ_left]
    simp only [endsAfter_zero, endsAfter_succ]
    cases hstep : step s with
    | next s1 => simp [ih, Nat.add_assoc, Nat.add_comm 1]
    | fault f => cases f <;> simp [and_left_comm, eq_comm]
    | refused r => simp

/-- Settles O55: a run counts from 0; `boot` runs from the state that `reset` leaves. -/
theorem runEndsAtTheFirstError : Obligations.RunEndsAtTheFirstError := by
  refine ⟨fun fuel s e n t => ?_, fun fuel s t h => ?_⟩
  · have hended := runFrom_eq_ended (fuel := fuel) (n := 0) (m := n) (s := s) (t := t) (e := e)
    simpa [run, EndsAfter] using hended
  · obtain ⟨_, ht⟩ := Bus.toOutcome_eq_next.mp h
    rw [boot, ht]

end Sys2Proof.Machine
end

section
/-! SUPPORT. The handler programs and the handler contract (R141, R143): every program is a contract handler, and every
contract handler is some program. -/

namespace Sys2Proof.Machine

/-! ## Registers and behaviours -/

@[simp] theorem State.regs_withRegs (r : Regs) (s : State) : (s.withRegs r).regs = r := rfl

@[simp] theorem State.withRegs_regs (s : State) : s.withRegs s.regs = s := rfl

theorem State.withRegs_eq (r : Regs) (s : State) :
    s.withRegs r = (((((s.setA r.a).setX r.x).setY r.y).setSp r.sp).setPc r.pc).setFlags r.flags := rfl

/-- A read does not see the registers. -/
theorem busRead_withRegs (a : Word) (r : Regs) (s : State) :
    busRead a (s.withRegs r) = (busRead a s).bind fun v t => .done v (t.withRegs r) := by
  simp only [State.withRegs_eq, busRead_setA, busRead_setX, busRead_setY, busRead_setSp, busRead_setPc,
    busRead_setFlags, Bus.bind_assoc, Bus.bind_done]

/-- Nor does a write. -/
theorem busWrite_withRegs (a : Word) (v : Byte) (r : Regs) (s : State) :
    busWrite a v (s.withRegs r) = (busWrite a v s).bind fun _ t => .done () (t.withRegs r) := by
  simp only [State.withRegs_eq, busWrite_setA, busWrite_setX, busWrite_setY, busWrite_setSp, busWrite_setPc,
    busWrite_setFlags, Bus.bind_assoc, Bus.bind_done]

/-- A behaviour decides by the answers it gets and leaves the registers it names, so it never looks at those it meets.
-/
theorem Behaviour.run_withRegs (m : Behaviour) (r : Regs) : ∀ s : State, m.run (s.withRegs r) = m.run s := by
  induction m with
  | leave q => exact fun _ => rfl
  | read addr next ih => intro s; simp only [Behaviour.run, busRead_withRegs, Bus.bind_assoc, Bus.bind_done, ih]
  | write addr v next ih => intro s; simp only [Behaviour.run, busWrite_withRegs, Bus.bind_assoc, Bus.bind_done, ih]

/-! ## Every program is a contract handler -/

/-- A state with these registers; the rest of it is never looked at. -/
def Regs.state (r : Regs) : State := State.reset.withRegs r

/-- The registers after an update of the state by name. -/
def Regs.update (f : State → State) (r : Regs) : Regs := (f r.state).regs

/-- After a write of registers and flags, a behaviour that knows of it may as well start where the write has not been
made. -/
theorem Behaviour.run_update {f : State → State} {r : Regs} {s : State}
    (hf : f (s.withRegs r) = s.withRegs (r.update f)) (m : Regs → Behaviour) :
    (m (r.update f)).run s = (m (f (s.withRegs r)).regs).run (f (s.withRegs r)) := by
  rw [hf, State.regs_withRegs, Behaviour.run_withRegs]

/-- An expression is a function of the registers, the operand and the locals (R143). -/
theorem evalExpr_withRegs (operand : Word) (l : Locals) (r : Regs) (s : State) (e : Expr) :
    evalExpr operand l (s.withRegs r) e = evalExpr operand l r.state e := by
  induction e with
  | lit | pc | flag | operand | tmp | packed => rfl
  | reg q => cases q <;> rfl
  | lo e ih | hi e ih | sext e ih | isZero e ih => simp only [evalExpr, ih]
  | add e f ihe ihf | sub e f ihe ihf | and e f ihe ihf | or e f ihe ihf | xor e f ihe ihf | shl e f ihe ihf
  | shr e f ihe ihf | eq e f ihe ihf | ult e f ihe ihf => simp only [evalExpr, ihe, ihf]

/-- What a program does, as a behaviour: `l` and `r` are the locals and registers at its start, `k` what follows it. The
stack unit's primitives are bus accesses at the slot SP names (R130 to R133). -/
def progBehaviour (operand : Word) : Prog → Locals → Regs → (Locals → Regs → Behaviour) → Behaviour
  | .skip, l, r, k => k l r
  | .seq p q, l, r, k => progBehaviour operand p l r fun l1 r1 => progBehaviour operand q l1 r1 k
  | .setTmp i e, l, r, k => k (l.set i (evalExpr operand l r.state e)) r
  | .setReg q e, l, r, k => k l (r.update (State.setReg q (loByte (evalExpr operand l r.state e))))
  | .setPc e, l, r, k => k l (r.update (State.setPc (evalExpr operand l r.state e)))
  | .setFlag f e, l, r, k => k l (r.update (State.setFlag f (evalExpr operand l r.state e != 0)))
  | .unpack e, l, r, k => k l (r.update (State.setFlags (unpack (loByte (evalExpr operand l r.state e)))))
  | .busRead i e, l, r, k => .read (evalExpr operand l r.state e) fun v => k (l.set i (zext16 v)) r
  | .busWrite e v, l, r, k =>
    .write (evalExpr operand l r.state e) (loByte (evalExpr operand l r.state v)) (k l r)
  | .pushByte v, l, r, k =>
    .write (stackAddr r.sp) (loByte (evalExpr operand l r.state v)) (k l { r with sp := r.sp - 1 })
  | .pullByte i, l, r, k => .read (stackAddr (r.sp + 1)) fun v => k (l.set i (zext16 v)) { r with sp := r.sp + 1 }
  | .pushWord v, l, r, k =>
    .write (stackAddr r.sp) (hiByte (evalExpr operand l r.state v))
      (.write (stackAddr (r.sp - 1)) (loByte (evalExpr operand l r.state v)) (k l { r with sp := r.sp - 1 - 1 }))
  | .pullWord i, l, r, k =>
    .read (stackAddr (r.sp + 1)) fun b => .read (stackAddr (r.sp + 1 + 1)) fun c =>
      k (l.set i (joinBytes c b)) { r with sp := r.sp + 1 + 1 }
  | .cond e p q, l, r, k =>
    if evalExpr operand l r.state e != 0 then progBehaviour operand p l r k else progBehaviour operand q l r k

theorem pushByte_withRegs (v : Byte) (r : Regs) (s : State) :
    pushByte v (s.withRegs r) =
      (busWrite (stackAddr r.sp) v s).bind fun _ t => .done () (t.withRegs { r with sp := r.sp - 1 }) := by
  rw [pushByte_eq, show (s.withRegs r).sp = r.sp from rfl, busWrite_withRegs, Bus.bind_assoc]
  rfl

theorem pullByte_withRegs (r : Regs) (s : State) :
    pullByte (s.withRegs r) =
      (busRead (stackAddr (r.sp + 1)) s).bind fun v t => .done v (t.withRegs { r with sp := r.sp + 1 }) := by
  rw [pullByte_eq, show (s.withRegs r).sp = r.sp from rfl, busRead_withRegs, Bus.bind_assoc]
  rfl

/-- A program followed by a behaviour is one behaviour, on any state with the program's registers. -/
theorem progBehaviour_run (operand : Word) (p : Prog) :
    ∀ (l : Locals) (r : Regs) (k : Locals → Regs → Behaviour) (s : State),
      (progBehaviour operand p l r k).run s =
        (runProg operand p l (s.withRegs r)).bind fun l1 t => (k l1 t.regs).run t := by
  induction p with
  | skip => intro l r k s; exact ((k l r).run_withRegs r s).symm
  | seq p q ihp ihq =>
    intro l r k s
    simp only [progBehaviour, ihp, runProg, Bus.bind_assoc]
    congr 1
    funext l1 t
    simp only [ihq, State.withRegs_regs]
  | setTmp i e =>
    intro l r k s
    simp only [progBehaviour, runProg, evalExpr_withRegs, Bus.bind_done, State.regs_withRegs, Behaviour.run_withRegs]
  | setReg q e =>
    intro l r k s
    simp only [progBehaviour, runProg, evalExpr_withRegs, Bus.bind_done]
    exact Behaviour.run_update (by cases q <;> rfl) (k l)
  | setPc e | setFlag f e | unpack e =>
    intro l r k s
    simp only [progBehaviour, runProg, evalExpr_withRegs, Bus.bind_done]
    exact Behaviour.run_update rfl (k l)
  | busRead i e =>
    intro l r k s
    simp only [progBehaviour, Behaviour.run, runProg, evalExpr_withRegs, busRead_withRegs, Bus.bind_assoc,
      Bus.bind_done, State.regs_withRegs, Behaviour.run_withRegs]
  | busWrite e v =>
    intro l r k s
    simp only [progBehaviour, Behaviour.run, runProg, evalExpr_withRegs, busWrite_withRegs, Bus.bind_assoc,
      Bus.bind_done, State.regs_withRegs, Behaviour.run_withRegs]
  | pushByte v =>
    intro l r k s
    simp only [progBehaviour, Behaviour.run, runProg, evalExpr_withRegs, pushByte_withRegs, Bus.bind_assoc,
      Bus.bind_done, State.regs_withRegs, Behaviour.run_withRegs]
  | pullByte i =>
    intro l r k s
    simp only [progBehaviour, Behaviour.run, runProg, pullByte_withRegs, Bus.bind_assoc, Bus.bind_done,
      State.regs_withRegs, Behaviour.run_withRegs]
  | pushWord v =>
    intro l r k s
    simp only [progBehaviour, Behaviour.run, runProg, pushWord, evalExpr_withRegs, pushByte_withRegs, Bus.bind_assoc,
      Bus.bind_done, State.regs_withRegs, Behaviour.run_withRegs]
  | pullWord i =>
    intro l r k s
    simp only [progBehaviour, Behaviour.run, runProg, pullWord, pullByte_withRegs, Bus.bind_assoc, Bus.bind_done,
      State.regs_withRegs, Behaviour.run_withRegs]
  | cond e p q ihp ihq =>
    intro l r k s
    simp only [progBehaviour, runProg, evalExpr_withRegs]
    split
    · exact ihp l r k s
    · exact ihq l r k s

/-- Settles O28: the handler is the program's behaviour from fresh locals, which ends by leaving the registers as they
are. -/
theorem everyHandlerProgramMeetsTheContract : Obligations.EveryHandlerProgramMeetsTheContract := by
  refine fun p => ⟨fun r operand => progBehaviour operand p Locals.init r fun _ q => .leave q, fun operand s => ?_⟩
  rw [progBehaviour_run, State.withRegs_regs]
  rfl

/-! ## Every contract handler is a program -/

/-- Go on by the value of an expression among those listed. -/
def switchOn (e : Expr) (f : Word → Prog) : List Word → Prog
  | [] => .skip
  | w :: ws => .cond (.eq e (.lit w)) (f w) (switchOn e f ws)

/-- Go on by the value of an expression: words are finitely many, so it is one program. -/
def switch (e : Expr) (f : Word → Prog) : Prog := switchOn e f ((List.finRange 65536).map BitVec.ofFin)

theorem runProg_switchOn {operand : Word} {l : Locals} {s : State} {e : Expr} {f : Word → Prog} {ws : List Word}
    (h : evalExpr operand l s e ∈ ws) :
    runProg operand (switchOn e f ws) l s = runProg operand (f (evalExpr operand l s e)) l s := by
  induction ws with
  | nil => simp at h
  | cons w ws ih =>
    simp only [switchOn, runProg, evalExpr, boolWord_ne_zero, beq_iff_eq]
    split
    case isTrue heq => rw [heq]
    case isFalse hne => exact ih ((List.mem_cons.mp h).resolve_left hne)

theorem runProg_switch (operand : Word) (l : Locals) (s : State) (e : Expr) (f : Word → Prog) :
    runProg operand (switch e f) l s = runProg operand (f (evalExpr operand l s e)) l s :=
  runProg_switchOn (List.mem_map.mpr ⟨_, List.mem_finRange _, rfl⟩)

/-- The program that leaves the registers at given values. -/
def Regs.prog (r : Regs) : Prog :=
  .seq (.setReg .a (.lit (zext16 r.a))) (.seq (.setReg .x (.lit (zext16 r.x))) (.seq (.setReg .y (.lit (zext16 r.y)))
    (.seq (.setReg .sp (.lit (zext16 r.sp))) (.seq (.setPc (.lit r.pc)) (.unpack (.lit (zext16 (pack r.flags))))))))

theorem runProg_regs (operand : Word) (l : Locals) (s : State) (r : Regs) :
    runProg operand r.prog l s = .done l (s.withRegs r) := by
  simp only [Regs.prog, runProg, evalExpr, Bus.bind_done, loByte_zext16, unpack_pack]
  rfl

/-- A behaviour as a program: each answer is kept in local 0 and looked at at once, so nothing else need be
remembered. -/
def Behaviour.prog : Behaviour → Prog
  | .leave r => r.prog
  | .read addr next => .seq (.busRead 0 (.lit addr)) (switch (.tmp 0) fun v => (next (loByte v)).prog)
  | .write addr v next => .seq (.busWrite (.lit addr) (.lit (zext16 v))) next.prog

theorem Behaviour.prog_run (operand : Word) (m : Behaviour) :
    ∀ (l : Locals) (s : State), ((runProg operand m.prog l s).bind fun _ t => .done () t) = m.run s := by
  induction m with
  | leave r => intro l s; rw [Behaviour.prog, runProg_regs]; rfl
  | read addr next ih =>
    intro l s
    rw [Behaviour.prog, runProg, Bus.bind_assoc]
    simp only [Behaviour.run, runProg, runProg_switch, evalExpr, Bus.bind_assoc, Bus.bind_done, Locals.set_same,
      loByte_zext16, ih]
  | write addr v next ih =>
    intro l s
    simp only [Behaviour.prog, Behaviour.run, runProg, evalExpr, Bus.bind_assoc, Bus.bind_done, loByte_zext16, ih]

/-- A contract handler as a program: it goes by the value of each register, of the packed flags and of the operand. -/
def ContractHandler.prog (f : ContractHandler) : Prog :=
  switch (.reg .a) fun a => switch (.reg .x) fun x => switch (.reg .y) fun y => switch (.reg .sp) fun sp =>
  switch .pc fun pc => switch .packed fun flags => switch .operand fun operand =>
    (f { a := loByte a, x := loByte x, y := loByte y, sp := loByte sp, pc, flags := unpack (loByte flags) }
      operand).prog

/-- Settles O29: the program goes by the values of everything the handler may look at, and then is the handler's
behaviour there. -/
theorem everyContractHandlerHasAProgram : Obligations.EveryContractHandlerHasAProgram := by
  refine fun f => ⟨f.prog, fun operand s => ?_⟩
  simp only [progEffect, ContractHandler.prog, runProg_switch, evalExpr, State.getReg, loByte_zext16, unpack_pack,
    Behaviour.prog_run]
  rfl

end Sys2Proof.Machine
end

section
/-! SUPPORT. Encoding and decoding (R82 to R87): what stands behind an entry that is `DEMO`'s, and the statements about
encodings and about `DEMO`'s table. -/

namespace Sys2Proof

open Sys2Proof.Machine (hiByte loByte joinBytes)

/-! ## Entries that are `DEMO`'s -/

/-- The operand bytes a handler's kind takes, lowest address first (R84, R85). -/
def Handler.operandBytes (h : Handler) (b : Byte) (w : Word) : List Byte :=
  match h with
  | .h0 _ => []
  | .h1 _ => [b]
  | .h2 _ => [loByte w, hiByte w]

/-- Each row of the opcode table is a `DEMO` instruction with the row's opcode byte and the operand bytes of the format
`DEMO`'s table gives that byte (R149). -/
theorem demoRows_encoding : ∀ row ∈ demoRows, ∀ (b : Byte) (w : Word),
    Machine.isDemoRow (row.2 b w) = true ∧ (row.2 b w).opcode = row.1 ∧
      ∀ h, (Demo.table.entry row.1).handler = some h → operandBytes (row.2 b w) = h.operandBytes b w := by
  have hrow : ∀ (op : Byte) (h : Handler) (i : Instr) (b : Byte) (w : Word), Machine.isDemoRow i = true →
      i.opcode = op → (Demo.table.entry op).handler = some h → operandBytes i = h.operandBytes b w →
      Machine.isDemoRow i = true ∧ i.opcode = op ∧
        ∀ h', (Demo.table.entry op).handler = some h' → operandBytes i = h'.operandBytes b w :=
    fun op h i b w hdemo hop hentry hbytes =>
      ⟨hdemo, hop, fun h' hh' => by rw [← Option.some.inj (hentry.symm.trans hh'), hbytes]⟩
  simp only [demoRows, List.forall_mem_cons, List.not_mem_nil, false_implies, implies_true, and_true]
  and_intros
  all_goals exact fun b w => hrow _ _ _ b w rfl rfl rfl rfl

theorem findRow_mem {rows : List (Byte × (Byte → Word → Instr))} {op : Byte} {f : Byte → Word → Instr}
    (h : findRow rows op = some f) : (op, f) ∈ rows := by
  induction rows with
  | nil => cases h
  | cons row rows ih =>
    obtain ⟨k, g⟩ := row
    rw [findRow] at h
    split at h
    case isTrue hk =>
      cases h
      simp [hk]
    case isFalse => exact List.mem_cons_of_mem _ (ih h)

theorem findRow_isSome {rows : List (Byte × (Byte → Word → Instr))} {op : Byte} (h : op ∈ rows.map Prod.fst) :
    ∃ f, findRow rows op = some f := by
  induction rows with
  | nil => simp at h
  | cons row rows ih =>
    obtain ⟨k, g⟩ := row
    rw [findRow]
    split
    case isTrue => exact ⟨g, rfl⟩
    case isFalse hk => exact ih ((List.mem_cons.mp h).resolve_left (Ne.symm hk))

/-- The constructor that stands for an instruction: the generic row, or, where the entry is `DEMO`'s, a `DEMO` row
with the opcode byte and the operand bytes of the entry's format. -/
theorem nameRow_cases {d : Descriptor} {op : Byte} {h : Handler} (hh : d.handler = some h) (b : Byte) (w : Word)
    (generic : Instr) :
    (d.isDemo op = false ∧ nameRow d op b w generic = generic) ∨
    (d.isDemo op = true ∧ Machine.isDemoRow (nameRow d op b w generic) = true ∧
      encode (nameRow d op b w generic) = op :: h.operandBytes b w) := by
  cases hdemo : d.isDemo op with
  | false => exact .inl ⟨rfl, by simp [nameRow, hdemo]⟩
  | true =>
    obtain ⟨hsome, _, _, hhandler⟩ := Machine.isDemo_entry hdemo
    obtain ⟨f, hf⟩ := findRow_isSome (Machine.demo_opcodes op hsome)
    obtain ⟨hrow, hop, hbytes⟩ := demoRows_encoding _ (findRow_mem hf) b w
    have hname : nameRow d op b w generic = f b w := by simp [nameRow, hdemo, hf]
    rw [hname, encode]
    exact .inr ⟨rfl, hrow, by rw [hop, hbytes h (hhandler ▸ hh)]⟩

/-! ## From the bytes to the instruction and back -/

/-- A `DEMO` row is well-formed where its opcode byte's entry is `DEMO`'s. -/
theorem wf_demoRow {t : OpTab} {i : Instr} (h : Machine.isDemoRow i = true) :
    i.wf t = (t.entry i.opcode).isDemo i.opcode := by
  cases i <;> first | rfl | cases h

/-- What the decoder names for an entry of format F`n` encodes as the opcode byte and the operand bytes, and is
well-formed. -/
theorem nameRow_spec {t : OpTab} {op : Byte} {h : Handler} (hh : (t.entry op).handler = some h)
    (hlen : (t.entry op).length = h.length) {generic : Instr} {b : Byte} {w : Word}
    (hbytes : encode generic = op :: h.operandBytes b w)
    (hwf : generic.wf t = (t.entry op).isGeneric h.length op) :
    encode (nameRow (t.entry op) op b w generic) = op :: h.operandBytes b w ∧
      (nameRow (t.entry op) op b w generic).wf t = true := by
  rcases nameRow_cases (op := op) hh b w generic with ⟨hdemo, hname⟩ | ⟨hdemo, hrow, henc⟩
  · rw [hname, hwf]
    exact ⟨hbytes, by simp [Descriptor.isGeneric, hh, hlen, hdemo]⟩
  · have hop : (nameRow (t.entry op) op b w generic).opcode = op := (List.cons.inj henc).1
    exact ⟨henc, by rw [wf_demoRow hrow, hop, hdemo]⟩

/-- The instruction of an entry encodes as the opcode byte and the operand bytes of its format, and is well-formed. -/
theorem entryInstr_spec {t : OpTab} {op : Byte} {h : Handler} (hh : (t.entry op).handler = some h)
    (hlen : (t.entry op).length = h.length) (b : Byte) (w : Word) :
    encode (Machine.entryInstr (t.entry op) op h b w) = op :: h.operandBytes b w ∧
      (Machine.entryInstr (t.entry op) op h b w).wf t = true := by
  cases h with
  | h0 p => exact nameRow_spec hh hlen (generic := .f1 op) (b := 0) (w := 0) rfl rfl
  | h1 p => exact nameRow_spec hh hlen (generic := .f2 op b) (w := 0) rfl rfl
  | h2 p => exact nameRow_spec hh hlen (generic := .f3 op w) (b := 0) rfl rfl

/-- After an opcode byte with a handler, operand bytes of its format decode to the instruction of its entry. -/
theorem decode_entryInstr {t : OpTab} {op : Byte} {h : Handler} (hh : (t.entry op).handler = some h)
    (hlen : (t.entry op).length = h.length) (b : Byte) (w : Word) (rest : List Byte) :
    decode t (op :: (h.operandBytes b w ++ rest)) = .ok (Machine.entryInstr (t.entry op) op h b w, rest) := by
  cases h with
  | h0 p => exact decode_h0 hh hlen rest
  | h1 p => exact decode_h1 hh hlen b rest
  | h2 p =>
    have hdec := decode_h2 hh hlen (loByte w) (hiByte w) rest
    rwa [Machine.joinBytes_hi_lo] at hdec

/-- And that is all the decoder answers for such a byte. -/
theorem decode_eq_ok {t : OpTab} {op : Byte} {h : Handler} (hh : (t.entry op).handler = some h)
    {bs rest : List Byte} {i : Instr} (hdec : decode t (op :: bs) = .ok (i, rest)) :
    (t.entry op).length = h.length ∧
      ∃ b w, i = Machine.entryInstr (t.entry op) op h b w ∧ bs = h.operandBytes b w ++ rest := by
  by_cases hlen : (t.entry op).length = h.length
  case neg => simp [decode, hh, hlen] at hdec
  refine ⟨hlen, ?_⟩
  cases h with
  | h0 p =>
    cases (decode_h0 hh hlen bs).symm.trans hdec
    exact ⟨0, 0, rfl, rfl⟩
  | h1 p =>
    cases bs with
    | nil => simp [decode, hh, hlen] at hdec
    | cons b bs =>
      cases (decode_h1 hh hlen b bs).symm.trans hdec
      exact ⟨b, 0, rfl, rfl⟩
  | h2 p =>
    match bs, hdec with
    | [], hdec | [_], hdec => simp [decode, hh, hlen] at hdec
    | l :: u :: bs, hdec =>
      cases (decode_h2 hh hlen l u bs).symm.trans hdec
      exact ⟨0, joinBytes u l, rfl, by simp [Handler.operandBytes]⟩

/-- Settles O32: the decoder answers the illegal class, or the instruction of the opcode byte's entry. -/
theorem decodedInstructionHasItsBytes : Obligations.DecodedInstructionHasItsBytes := by
  intro t bytes rest i hdec
  suffices bytes = encode i ++ rest ∧ i.wf t = true from ⟨this.1, fun _ => this.2⟩
  cases bytes with
  | nil => cases hdec
  | cons op bs =>
    cases hh : (t.entry op).handler with
    | none =>
      rw [decode_absent hh] at hdec
      cases hdec
      exact ⟨rfl, by simp [Instr.wf, hh]⟩
    | some h =>
      obtain ⟨hlen, b, w, rfl, rfl⟩ := decode_eq_ok hh hdec
      obtain ⟨henc, hwf⟩ := entryInstr_spec hh hlen b w
      exact ⟨by rw [henc]; rfl, hwf⟩

/-- Where the entry is `DEMO`'s, the decoder answers as under `DEMO` (R83). -/
theorem decode_isDemo {t : OpTab} {op : Byte} (h : (t.entry op).isDemo op = true) (bs : List Byte) :
    decode t (op :: bs) = decode Demo.table (op :: bs) := by
  obtain ⟨hsome, hlen, -, hhandler⟩ := Machine.isDemo_entry h
  have hself : (Demo.table.entry op).isDemo op = true := by simp [Descriptor.isDemo, hsome, Descriptor.same]
  simp only [decode, nameRow, h, hself, hlen, hhandler]

/-- A `DEMO` row decodes under `DEMO`. -/
theorem decode_demoRow {i : Instr} (h : Machine.isDemoRow i = true) (rest : List Byte) :
    decode Demo.table (encode i ++ rest) = .ok (i, rest) := by
  have hword : ∀ (f : Word → Instr) (w : Word),
      (.ok (f (joinBytes (hiByte w) (loByte w)), rest) : Except DecodeError _) = .ok (f w, rest) :=
    fun f w => by rw [Machine.joinBytes_hi_lo]
  cases i
  case f1 | f2 | f3 | illegal => cases h
  case ldaAbs w => exact hword .ldaAbs w
  case staAbs w => exact hword .staAbs w
  case jmpAbs w => exact hword .jmpAbs w
  case jsrAbs w => exact hword .jsrAbs w
  all_goals rfl

/-- Settles O31: a `DEMO` row decodes as under `DEMO`; a generic row's entry is of its format and not `DEMO`'s; a byte
of the illegal class has no handler. -/
theorem decodeEncodeRoundTrip : Obligations.DecodeEncodeRoundTrip := by
  intro t i rest hwf
  have hgeneric : ∀ {n op}, (t.entry op).isGeneric n op = true → ∃ h, (t.entry op).handler = some h ∧ h.length = n ∧
      (t.entry op).length = h.length ∧ ∀ b w, nameRow (t.entry op) op b w = id := by
    intro n op h
    unfold Descriptor.isGeneric at h
    split at h
    · cases h
    · simp_all [nameRow, funext_iff]
  cases hrow : Machine.isDemoRow i with
  | true =>
    rw [wf_demoRow hrow] at hwf
    rw [encode, List.cons_append, decode_isDemo hwf]
    exact decode_demoRow hrow rest
  | false =>
    cases i
    case f1 op =>
      obtain ⟨h, hh, hn, hlen, hname⟩ := hgeneric hwf
      cases h <;> cases hn
      exact (decode_entryInstr hh hlen 0 0 rest).trans (by rw [Machine.entryInstr, hname]; rfl)
    case f2 op b =>
      obtain ⟨h, hh, hn, hlen, hname⟩ := hgeneric hwf
      cases h <;> cases hn
      exact (decode_entryInstr hh hlen b 0 rest).trans (by rw [Machine.entryInstr, hname]; rfl)
    case f3 op w =>
      obtain ⟨h, hh, hn, hlen, hname⟩ := hgeneric hwf
      cases h <;> cases hn
      exact (decode_entryInstr hh hlen 0 w rest).trans (by rw [Machine.entryInstr, hname]; rfl)
    case illegal op =>
      exact decode_absent (Option.isNone_iff_eq_none.mp hwf) rest
    all_goals cases hrow

/-- Settles O33: each word is decoded by evaluation. -/
theorem tableWordsDecode : Obligations.TableWordsDecode := by
  refine ⟨?_, ?_, ?_, ?_, ?_, ?_, ?_, ?_, ?_, ?_⟩ <;> rfl

/-- Settles O34: the table is checked entry by entry. -/
theorem demoTableHasTwentySevenRows : Obligations.DemoTableHasTwentySevenRows := by
  unfold Obligations.DemoTableHasTwentySevenRows
  decide

end Sys2Proof
end

section
/-! SUPPORT. A step whose code lies in plain memory (R83, R100), and the statement about it. -/

namespace Sys2Proof.Machine

theorem State.peekBytes_succ {n : Nat} {a : Word} {s : State} {bs : List Byte}
    (h : State.peekBytes (n + 1) a s = some bs) :
    ∃ b rest, bs = b :: rest ∧ s.peek a = some b ∧ State.peekBytes n (a + 1) s = some rest := by
  unfold State.peekBytes at h
  split at h
  · cases h
  · rename_i b hb
    split at h
    · cases h
    · rename_i rest hrest
      cases h
      exact ⟨b, rest, rfl, hb, hrest⟩

/-- Reading bytes of plain memory answers them and changes nothing (R42, R58). -/
theorem readBytes_of_peekBytes {n : Nat} :
    ∀ {a : Word} {s : State} {bs : List Byte}, State.peekBytes n a s = some bs → readBytes n a s = .done bs s := by
  induction n with
  | zero =>
    intro a s bs h
    cases h
    rfl
  | succ n ih =>
    intro a s bs h
    obtain ⟨b, rest, rfl, hb, hrest⟩ := State.peekBytes_succ h
    rw [readBytes, busRead_of_peek hb, Bus.bind_done, ih hrest, Bus.bind_done]

/-- Settles O18: the fetch reads just the instruction's bytes, without changing the state. A stack error of the fetch
is the instruction's own. -/
theorem stepRunsTheDecodedInstruction : Obligations.StepRunsTheDecodedInstruction := by
  intro s i bytes hwf hpeek hdec
  have hbytes : bytes = encode i := by simpa using (decodedInstructionHasItsBytes _ _ _ _ hdec).1
  obtain ⟨n, hn⟩ : ∃ n, i.length = n + 1 := ⟨_, Nat.add_comm _ _⟩
  obtain ⟨op, bs, rfl, hop, hbs⟩ := State.peekBytes_succ (hn ▸ hpeek)
  have hread := busRead_of_peek hop
  cases hh : (s.optab.entry op).handler with
  | none =>
    rw [decode_absent hh] at hdec
    cases hdec
    exact step_of_opcodeError hwf hread (opcodeError_absent hh s)
  | some h =>
    obtain ⟨hlen, b, w, hi, hrest⟩ := decode_eq_ok hh hdec
    cases hcheck : stackCheck (s.optab.entry op).headroom s with
    | some e =>
      rw [step_of_opcodeError (e := e) hwf hread (by simp [opcodeError, hh, hcheck]), hi,
        exec_entryInstr rfl hh hlen, runInstr_stop hcheck]
    | none =>
      have hcount : n = h.length - 1 := by
        have hoperand : bs = operandBytes i := (List.cons.inj hbytes).2
        have hbs : bs.length = h.length - 1 := by
          rw [hrest, List.append_nil]
          cases h <;> rfl
        rw [Instr.length, ← hoperand] at hn
        omega
      have hfetch : readBytes (h.length - 1) (codeAddr s.pc 1) s = .done bs s :=
        hcount ▸ readBytes_of_peekBytes hbs
      simp only [step, hwf, if_true, fetch_eq, hread, hh, hcheck, hlen, hfetch, hdec]

end Sys2Proof.Machine
end

section
/-! SUPPORT. The bus over a region list split at the first covering region, and newly registered regions (R41 to R51,
R252): the statements about the bus. -/

namespace Sys2Proof.Machine

/-! ## The first covering region (R41 to R45) -/

theorem storeFirst_split {front back : List Region} {r : Region} {a : Word} (hfront : ∀ q ∈ front, q.covers a = false)
    (hr : r.covers a = true) (v : Byte) :
    storeFirst (front ++ r :: back) a v = front ++ r.store a v :: back := by
  induction front with
  | nil => simp [storeFirst, hr]
  | cons q front ih =>
    obtain ⟨hq, hfront⟩ := List.forall_mem_cons.mp hfront
    simp [storeFirst, hq, ih hfront]

/-- So it replaces one region of the list. -/
theorem storeFirst_eq_set {rs front back : List Region} {r : Region} {a : Word} (hrs : rs = front ++ r :: back)
    (hfront : ∀ q ∈ front, q.covers a = false) (hr : r.covers a = true) (v : Byte) :
    storeFirst rs a v = rs.set front.length (r.store a v) := by
  rw [hrs, storeFirst_split hfront hr]
  simp

theorem Region.isRam_of_backing {r : Region} {m : Memory} (h : r.backing = .ram m) : r.isRam = true := by
  simp only [Region.isRam, h]

theorem Region.store_of_isRam {r : Region} (h : r.isRam = true) (a : Word) (v : Byte) :
    r.store a v = { r with backing := .ram (r.memory.set (r.offset a) v) } := by
  cases hb : r.backing <;> simp_all [Region.store, Region.memory, Region.isRam]

section Resolved

variable {s : State} {a : Word} {r : Region} (hres : resolve s.regions a = some r)

include hres

theorem State.peek_resolved (hplain : r.isPlain = true) : s.peek a = some (r.load a) := by
  simp [State.peek, hres, hplain]

theorem busRead_io {handle readFn writeFn : Nat} (hb : r.backing = .io handle readFn writeFn) :
    busRead a s = ioRead readFn handle a s := by simp only [busRead, hres, hb]

theorem busWrite_rom {m : Memory} (hb : r.backing = .rom m) (v : Byte) : busWrite a v s = .done () s := by
  simp only [busWrite, hres, hb]

theorem busWrite_io {handle readFn writeFn : Nat} (hb : r.backing = .io handle readFn writeFn) (v : Byte) :
    busWrite a v s = ioWrite writeFn handle a v s := by simp only [busWrite, hres, hb]

end Resolved

/-- Settles O4: the split list resolves to the region it is split at, and the read is that region's. -/
theorem busReadAsksOnlyTheFirstCoveringRegion : Obligations.BusReadAsksOnlyTheFirstCoveringRegion := by
  refine ⟨fun a s front back r hs hfront hr => ?_, fun a s hnone => busRead_unmapped (resolve_eq_none.mpr hnone)⟩
  have hres : resolve s.regions a = some r := resolve_eq_some.mpr ⟨front, back, hs, hfront, hr⟩
  exact ⟨fun hplain => busRead_of_peek (State.peek_resolved hres hplain), fun _ _ _ hb => busRead_io hres hb⟩

/-- Settles O5: the split list resolves to the region it is split at, and the write is that region's. -/
theorem busWriteReachesOnlyTheFirstCoveringRegion : Obligations.BusWriteReachesOnlyTheFirstCoveringRegion := by
  refine ⟨fun a v s front back r hs hfront hr => ?_, fun a v s hnone => busWrite_unmapped (resolve_eq_none.mpr hnone)⟩
  have hres : resolve s.regions a = some r := resolve_eq_some.mpr ⟨front, back, hs, hfront, hr⟩
  refine ⟨fun m hb => ?ram, fun m hb => busWrite_rom hres hb v, fun _ _ _ hb => busWrite_io hres hb v⟩
  case ram =>
    have hram := Region.isRam_of_backing hb
    have hmem : r.memory = m := by simp only [Region.memory, hb]
    rw [busWrite_ram ⟨r, hres, hram⟩, hs, storeFirst_split hfront hr, Region.store_of_isRam hram, hmem]
    rfl

/-- A RAM region's other bytes stay when one is written (R44). -/
theorem Region.memory_get_store {r : Region} {a : Word} {o : Nat} (ho : o ≠ r.offset a) (v : Byte) :
    (r.store a v).memory.get o = r.memory.get o := by
  cases hb : r.backing with
  | ram m => simp [Region.store, Region.memory, hb, Memory.get_set, ho]
  | rom m => simp [Region.store, hb]
  | io handle readFn writeFn => simp [Region.store, hb]

/-- Settles O6: the list is split at the region the address resolves to, and a write to RAM stores in that region
only. -/
theorem ramWriteChangesOneByte : Obligations.RamWriteChangesOneByte := by
  intro a v s hram
  obtain ⟨r, hres, hr⟩ := hram
  have hwrite := busWrite_ram (v := v) ⟨r, hres, hr⟩
  refine ⟨_, hwrite, busRead_of_peek (State.peek_store_same ⟨r, hres, hr⟩ v),
    fun b hb => State.peek_store_other (Ne.symm hb) v, ?_, rfl, busWrite_layout hwrite⟩
  obtain ⟨front, back, hs, hfront, hcovers⟩ := resolve_eq_some.mp hres
  refine ⟨front.length, r, by simp [hs], hres, fun j o hjo => ?_⟩
  rw [State.regionByte, State.regionByte, State.setRegions_regions, storeFirst_eq_set hs hfront hcovers]
  rcases eq_or_ne j front.length with rfl | hj
  · have ho : o ≠ r.offset a := hjo.resolve_left (fun h => h rfl)
    simp [hs, Region.memory_get_store ho]
  · rw [List.getElem?_set_ne hj.symm]

/-! ## A region registered in front (R41, R46 to R49) -/

theorem Region.covers_iff {r : Region} {a : Word} :
    r.covers a = true ↔ r.start.toNat ≤ a.toNat ∧ a.toNat < r.start.toNat + r.length := by
  simp [Region.covers]

theorem Region.covers_eq_false {r : Region} {a : Word}
    (h : ¬(r.start.toNat ≤ a.toNat ∧ a.toNat < r.start.toNat + r.length)) : r.covers a = false :=
  Bool.eq_false_iff.mpr (mt Region.covers_iff.mp h)

theorem resolve_register {r : Region} {s : State} {a : Word} (h : r.covers a = true) :
    resolve (register r s).regions a = some r := if_pos h

theorem resolve_register_outside {r : Region} {s : State} {a : Word} (h : r.covers a = false) :
    resolve (register r s).regions a = resolve s.regions a := by
  rw [register, State.setRegions_regions, resolve_cons, h]
  rfl

theorem State.peek_register_outside {r : Region} {s : State} {a : Word} (h : r.covers a = false) :
    (register r s).peek a = s.peek a := by
  rw [State.peek, State.peek, resolve_register_outside h]

/-- A write outside a region in front leaves that region as it was. -/
theorem busWrite_register_outside {r : Region} {s u : State} {a : Word} {v : Byte} (h : r.covers a = false)
    (hw : busWrite a v (register r s) = .done () u) : u.regions.head? = some r := by
  rcases busWrite_frame hw with rfl | rfl | ⟨_, _, rfl⟩
  · simp [register, storeFirst, h]
  · rfl
  · rfl

/-- Settles O7: what the new region covers resolves to it, and its buffer is zeroed; what it does not cover resolves as
before. -/
theorem newRamRegionShadowsWhatItCovers : Obligations.NewRamRegionShadowsWhatItCovers := by
  intro start length s a v
  let r : Region := { start, length, backing := .ram [] }
  refine ⟨register r s, rfl, rfl, fun hstart hlength => ?inside, fun houtside => ?outside⟩
  case inside =>
    have hcovers : r.covers a = true := Region.covers_iff.mpr ⟨hstart, hlength⟩
    have hres := resolve_register (s := s) hcovers
    have hram : (register r s).isRamAt a := ⟨r, hres, rfl⟩
    refine ⟨busRead_of_peek (State.peek_resolved hres rfl), _, busWrite_ram hram,
      busRead_of_peek (State.peek_store_same hram v), ?_⟩
    simp [register, storeFirst, hcovers]
  case outside =>
    have hcovers : r.covers a = false := Region.covers_eq_false houtside
    exact ⟨State.peek_register_outside hcovers, fun u hu => busWrite_register_outside hcovers hu⟩

/-- Settles O8: what the new region covers resolves to it, and its buffer is the bytes given; the file's size is
compared with the same bound. -/
theorem romRegionAnswersItsBytes : Obligations.RomRegionAnswersItsBytes := by
  refine ⟨fun start length bytes s hlen => ⟨addRomData start length bytes s, if_pos hlen, rfl,
    fun a i v ha hi hv => ?_⟩, fun start bytes s hsize => ?small, fun start bytes s hsize => ?large, fun _ _ => rfl⟩
  case small =>
    have hfile : addRomFile start (some bytes) s = addRomData start bytes.length bytes s := if_pos hsize
    simp only [perform, hfile, le_refl, if_true]
  case large => exact congrArg Host.Outcome.next (if_neg (Nat.not_le.mpr hsize))
  have hcovers : ∀ m, ({ start, length, backing := .rom m } : Region).covers a = true :=
    fun m => Region.covers_iff.mpr ⟨by simp only []; omega, by simp only []; omega⟩
  have hres := resolve_register (s := s) (hcovers (Memory.ofBytes 0 (bytes.take length)))
  refine ⟨(State.peek_resolved hres rfl).trans (congrArg some ?_), busWrite_rom hres rfl⟩
  have hoffset : a.toNat - start.toNat = 0 + i := by omega
  simp only [Region.load, Region.memory, Region.offset, hoffset, Memory.get_ofBytes, List.getElem?_take, hi, if_true,
    hv, Option.getD_some]

/-- Settles O9: what the new region covers resolves to it; what it does not cover resolves as before. -/
theorem ioRegionGetsHandleAndAbsoluteAddress : Obligations.IoRegionGetsHandleAndAbsoluteAddress := by
  intro start length handle readFn writeFn s a v
  let r : Region := { start, length, backing := .io handle readFn writeFn }
  refine ⟨register r s, rfl, rfl, fun hstart hlength => ?inside, fun houtside => ?outside⟩
  case inside =>
    have hres := resolve_register (r := r) (s := s) (Region.covers_iff.mpr ⟨hstart, hlength⟩)
    exact ⟨busRead_io hres rfl, busWrite_io hres rfl v⟩
  case outside => exact State.peek_register_outside (Region.covers_eq_false houtside)

/-- Settles O10: a vector is so defined; on plain memory it is `readVector_of_peek`. -/
theorem vectorIsLittleEndian : Obligations.VectorIsLittleEndian :=
  ⟨fun _ _ => rfl, fun _ _ l h hl hh => ⟨joinBytes h l, readVector_of_peek hl hh, joinBytes_toNat h l⟩⟩

/-- Settles O11: the store is a write to RAM, and a fetch reads the regions it left. -/
theorem storeIsSeenByFetch : Obligations.StoreIsSeenByFetch := by
  intro w s t hram hexec u hregions hpc
  obtain ⟨_, hstore⟩ := runInstr_next hexec
  have hwrite := busWrite_ram (v := s.a) (s := s.setPc (codeAddr s.pc 3)) hram
  obtain ⟨-, rfl⟩ := Bus.done.inj (hwrite.symm.trans hstore)
  rw [hpc]
  exact busRead_of_peek ((State.peek_congr hregions w).trans (State.peek_store_same hram s.a))

/-! ## The direct path (R252) -/

/-- A region that touches neither low page covers no address of them. -/
theorem Region.covers_of_not_touchesLowPages {q : Region} (h : q.touchesLowPages = false) {a : Word}
    (ha : a.toNat < 512) : q.covers a = false := by
  refine Region.covers_eq_false fun hc => ?_
  have htouches : q.length ≠ 0 ∧ q.start.toNat < Config.fastPathMin :=
    ⟨by omega, by rw [Config.fastPathMin]; omega⟩
  simp [Region.touchesLowPages, htouches] at h

/-- Settles O12: no region in front of the cached one covers an address of the low pages, and the cached one covers them
all, with offsets that are the addresses. -/
theorem directPathEqualsTheBusOnTheLowPages : Obligations.DirectPathEqualsTheBusOnTheLowPages := by
  intro s k r ⟨hk, hram, hstart, hlength, hfront⟩ a ha
  obtain ⟨hlt, hget⟩ := List.getElem?_eq_some_iff.mp hk
  have hsplit : s.regions = s.regions.take k ++ r :: s.regions.drop (k + 1) := by
    rw [← hget, List.getElem_cons_drop, List.take_append_drop]
  have hclear : ∀ q ∈ s.regions.take k, q.covers a = false := by
    intro q hq
    obtain ⟨j, hj, rfl⟩ := List.mem_take_iff_getElem.mp hq
    exact Region.covers_of_not_touchesLowPages (hfront j _ (by omega) (by simp)) ha
  have hcovers : r.covers a = true := by
    rw [Region.covers_iff, hstart]
    simp only [Config.fastPathMin] at hlength
    exact ⟨Nat.zero_le _, by simp; omega⟩
  have hoffset : r.offset a = a.toNat := by rw [Region.offset, hstart]; rfl
  have hres : resolve s.regions a = some r := resolve_eq_some.mpr ⟨_, _, hsplit, hclear, hcovers⟩
  refine ⟨?read, fun v => ?write⟩
  case read =>
    rw [busRead_of_peek (State.peek_resolved hres (Region.isPlain_of_isRam hram)), Region.load, hoffset, directRead]
  case write =>
    have hcount : (s.regions.take k).length = k := List.length_take_of_le hlt.le
    rw [busWrite_ram ⟨r, hres, hram⟩, storeFirst_eq_set hsplit hclear hcovers, hcount, Region.store_of_isRam hram,
      hoffset, directWrite]

end Sys2Proof.Machine
end

section
/-! SUPPORT. The status byte both ways (R18), and the stack unit: what a push leaves, what a pull finds, and the
strict check (R103, R130 to R136). -/

namespace Sys2Proof.Machine

/-! ## The status byte (R18) -/

/-- Packing what was unpacked gives every bit back but bit 5, which comes out as 1. -/
theorem pack_unpack_getLsbD (b : Byte) {k : Nat} (hk : k < 8) :
    (pack (unpack b)).getLsbD k = (b.getLsbD k || decide (k = 5)) := by
  obtain ⟨_, h7, h6, h5, h4, h3, h2, h1, h0⟩ := packPutsEachFlagInItsBit (unpack b)
  interval_cases k
  · exact h0.trans (Bool.or_false _).symm
  · exact h1.trans (Bool.or_false _).symm
  · exact h2.trans (Bool.or_false _).symm
  · exact h3.trans (Bool.or_false _).symm
  · exact h4.trans (Bool.or_false _).symm
  · exact h5.trans (Bool.or_true _).symm
  · exact h6.trans (Bool.or_false _).symm
  · exact h7.trans (Bool.or_false _).symm

theorem bit_five_getLsbD {k : Nat} (hk : k < 8) : (0x20 : Byte).getLsbD k = decide (k = 5) := by
  interval_cases k <;> rfl

/-- Settles O3: `unpack_pack`, and the bits of a byte packed again; bit 5 is the only one that can change. -/
theorem packAndUnpackAreInverseButForBitFive : Obligations.PackAndUnpackAreInverseButForBitFive := by
  refine ⟨unpack_pack, pack_getLsbD_five, fun b => ⟨?_, fun hne => ?_, fun h5 heq => ?_⟩⟩
  · refine BitVec.eq_of_getLsbD_eq fun k hk => ?_
    rw [pack_unpack_getLsbD b hk, BitVec.getLsbD_or, bit_five_getLsbD hk]
  · refine Bool.eq_false_iff.mpr fun h5 => hne (BitVec.eq_of_getLsbD_eq fun k hk => ?_)
    rw [pack_unpack_getLsbD b hk]
    by_cases hk5 : k = 5
    · simp [hk5, h5]
    · simp [hk5]
  · have hset := pack_getLsbD_five (unpack b)
    rw [heq, h5] at hset
    cases hset

/-! ## Pushes and pulls (R130 to R136) -/

/-- Settles O13: a push is a write to the slot and then a change of SP, so each clause is the write's. -/
theorem pushByteWritesTheFreeSlot : Obligations.PushByteWritesTheFreeSlot := by
  refine ⟨stackAddr_toNat, fun v s => ⟨fun hram => ?ram, fun r m hres hb => ?rom,
    fun r handle readFn writeFn hres hb => ?io, pushByte_unmapped⟩⟩
  case ram =>
    have hpush := pushByte_ram (v := v) hram
    refine ⟨_, hpush, pushByte_ram_peek_slot hram hpush, fun a ha => pushByte_peek_other hpush ha,
      (pushByte_controls hpush).layout, pushByte_ram_frame hram hpush, ?_⟩
    rw [pushByte_sp hpush, BitVec.toNat_sub, Nat.add_comm]
    rfl
  case rom => rw [pushByte_eq, busWrite_rom hres hb, Bus.bind_done]
  case io =>
    rw [pushByte_eq, busWrite_io hres hb]
    rfl

/-- Settles O16: the pulls find the pushed bytes in the slots they were pushed to, and move SP back. -/
theorem pullUndoesPush : Obligations.PullUndoesPush := by
  refine ⟨fun v s hram => ?byte, fun w s hhi hlo => ?word⟩
  case byte =>
    obtain ⟨t, ht⟩ : ∃ t, pushByte v s = .done () t := ⟨_, pushByte_ram hram⟩
    have hsp : t.sp + 1 = s.sp := by rw [pushByte_sp ht, BitVec.sub_add_cancel]
    have hpull : pullByte t = .done v (t.setSp s.sp) := by
      rw [← hsp]
      exact pullByte_of_peek (hsp.symm ▸ pushByte_ram_peek_slot hram ht)
    refine ⟨t, _, ht, hpull, rfl, pushByte_ram_frame hram ht, fun a ha => ?_⟩
    exact (State.peek_setSp a _ t).trans (pushByte_peek_other ht ha)
  case word =>
    obtain ⟨t, ht, hhigh, hlow, hother, -, hrest, hsp⟩ := pushWordStoresHighThenLow.2.2 w s hhi hlo
    have hone : t.sp + 1 = s.sp - 1 := by bv_omega
    have htwo : t.sp + 2 = s.sp := by bv_omega
    have hpull : pullWord t = .done w (t.setSp s.sp) := by
      rw [pullWord_of_peek (hone.symm ▸ hlow) (htwo.symm ▸ hhigh), joinBytes_hi_lo, htwo]
    exact ⟨t, _, ht, hpull, rfl, hrest, hother⟩

/-- Settles O17: the check's outcomes one by one; free and used bytes are counted from SP. -/
theorem strictCheckFollowsItsTable : Obligations.StrictCheckFollowsItsTable := by
  refine fun h s => ⟨stackCheck_eq_overflow, stackCheck_eq_underflow, stackCheck_ne_unimplemented h s,
    stackCheck_eq_none, ?_⟩
  have hsp := s.sp.isLt
  rw [State.stackFree, State.stackUsed]
  omega

end Sys2Proof.Machine
end

section
/-! SUPPORT. What the rows of `DEMO` leave (R150 to R176): the statements about their results. -/

namespace Sys2Proof.Machine

/-! ## Running a row -/

/-- With its declared headroom there, a row of `DEMO` is its effect with PC past the instruction. -/
theorem exec_demo_room {i : Instr} {s : State} (hi : isDemoRow i = true) (hroom : roomFor (demoHeadroom i) s) :
    exec i s = (demoEffect i (s.setPc (codeAddr s.pc i.length))).toOutcome := by
  rw [exec_demo hi, runInstr_room hroom]

/-- A row that declares no headroom always runs. -/
theorem exec_demo_zero {i : Instr} (hi : isDemoRow i = true) (hzero : demoHeadroom i = 0) (s : State) :
    exec i s = (demoEffect i (s.setPc (codeAddr s.pc i.length))).toOutcome :=
  exec_demo_room hi (hzero ▸ roomFor_zero s)

/-- A positive headroom is a number of free bytes. -/
theorem roomFor_free {n : Nat} {s : State} (h : s.strict = true → n ≤ s.sp.toNat) : roomFor n s :=
  fun hs => ⟨fun _ => by have := h hs; omega, fun hneg => by omega⟩

/-- A negative headroom is a number of used bytes. -/
theorem roomFor_used {n : Nat} {s : State} (h : s.strict = true → n ≤ 255 - s.sp.toNat) : roomFor (-n) s :=
  fun hs => ⟨fun hpos => by omega, fun _ => by have := h hs; have := s.sp.isLt; omega⟩

/-! ## Registers, flags and jumps (R150 to R153, R158 to R166, R171, R175, R176) -/

/-- Settles O35: none of the four touches the bus. -/
theorem nopAndImmediateLoadResults : Obligations.NopAndImmediateLoadResults := fun _ s =>
  ⟨exec_demo_zero rfl rfl s, exec_demo_zero rfl rfl s, exec_demo_zero rfl rfl s, exec_demo_zero rfl rfl s⟩

theorem decide_toNat_eq_zero (v : Byte) : decide (v.toNat = 0) = (v == 0) := by
  rw [beq_eq_decide]
  exact decide_eq_decide.mpr ⟨fun h => BitVec.eq_of_toNat_eq h, fun h => congrArg BitVec.toNat h⟩

/-- Settles O38: none of the five touches the bus; counting is modulo 256. -/
theorem transferResults : Obligations.TransferResults := by
  refine fun s => ⟨exec_demo_zero rfl rfl s, exec_demo_zero rfl rfl s, exec_demo_zero rfl rfl s,
    ⟨s.x + 1, BitVec.toNat_add _ _, ?inx⟩, ⟨s.x - 1, ?wrap, ?dex⟩⟩
  case inx =>
    rw [decide_toNat_eq_zero]
    exact exec_demo_zero rfl rfl s
  case wrap => exact (BitVec.toNat_sub _ _).trans (congrArg (· % 256) (Nat.add_comm _ _))
  case dex =>
    rw [decide_toNat_eq_zero]
    exact exec_demo_zero rfl rfl s

/-- Settles O39: none of the four touches the bus. -/
theorem flagOperationResults : Obligations.FlagOperationResults := fun s =>
  ⟨exec_demo_zero rfl rfl s, exec_demo_zero rfl rfl s, exec_demo_zero rfl rfl s, exec_demo_zero rfl rfl s⟩

/-- A relative target, in signed arithmetic modulo 65536 (R175). -/
theorem relativeTarget_toInt (pc : Word) (b : Byte) :
    ((relativeTarget pc b).toInt - (pc.toInt + b.toInt)) % 65536 = 0 := by
  rw [← Int.emod_eq_emod_iff_emod_sub_eq_zero, relativeTarget, BitVec.toInt_add, sext16,
    BitVec.toInt_signExtend_of_le (by decide)]
  exact Int.bmod_emod

/-- Settles O42: none of the three touches the bus; a branch goes by Z. -/
theorem jumpAndBranchResults : Obligations.JumpAndBranchResults := by
  refine fun w b s => ⟨exec_demo_zero rfl rfl s, relativeTarget (s.pc + 2) b, ?target, ?bne, ?beq⟩
  case target =>
    have htarget := relativeTarget_toInt (s.pc + 2) b
    have hnext : (s.pc + 2).toInt % 65536 = (s.pc.toInt + 2) % 65536 := by
      rw [BitVec.toInt_add]
      exact Int.bmod_emod
    omega
  case bne | beq =>
    rw [exec_demo_zero rfl rfl]
    cases hz : s.flags.z <;> simp [demoEffect, branchIf, hz] <;> rfl

/-! ## Loads and stores (R154 to R157) -/

theorem loadFrom_setPc (addr pc : Word) (s : State) :
    loadFrom addr (s.setPc pc) = (busRead addr s).bind fun v t => .done () (loadA v (t.setPc pc)) := by
  rw [loadFrom, busRead_setPc, Bus.bind_assoc]
  rfl

theorem storeTo_setPc (addr pc : Word) (s : State) :
    storeTo addr (s.setPc pc) = (busWrite addr s.a s).bind fun _ t => .done () (t.setPc pc) := by
  rw [storeTo, busWrite_setPc]
  rfl

/-- Settles O36: either form is a read of its address and then the writes of A, Z, N and PC. -/
theorem memoryLoadResults : Obligations.MemoryLoadResults := by
  intro i addr len s hi
  have hexec : exec i s =
      ((busRead addr s).bind fun v t => .done () (loadA v (t.setPc (s.pc + len)))).toOutcome := by
    rw [← loadFrom_setPc]
    rcases hi with ⟨b, rfl, rfl, rfl⟩ | ⟨rfl, rfl⟩ <;> exact exec_demo_zero rfl rfl s
  rw [hexec]
  refine ⟨fun v hv => ?plain, fun hm => ?mapped, fun hm => ?unmapped⟩
  case plain =>
    rw [busRead_of_peek hv]
    rfl
  case mapped =>
    obtain ⟨v, t, ht⟩ := busRead_mapped hm
    refine ⟨v, t, ht, ?_⟩
    rw [ht, busRead_events ht]
    rfl
  case unmapped =>
    rw [busRead_unmapped (by simpa [State.mapped] using hm)]
    rfl

/-- Settles O37: either form is a write to its address and then the write of PC. -/
theorem storeResults : Obligations.StoreResults := by
  intro i addr len s hi
  have hexec : exec i s =
      ((busWrite addr s.a s).bind fun _ t => .done () (t.setPc (s.pc + len))).toOutcome := by
    rw [← storeTo_setPc]
    rcases hi with ⟨b, rfl, rfl, rfl⟩ | ⟨rfl, rfl⟩ <;> exact exec_demo_zero rfl rfl s
  rw [hexec]
  refine ⟨fun hram => ?ram, fun r m hres hb => ?rom, fun r handle readFn writeFn hres hb => ?io, fun hm => ?unmapped⟩
  case ram =>
    have hwrite := busWrite_ram (v := s.a) hram
    have hlayout := busWrite_layout hwrite
    rw [hwrite]
    exact ⟨_, rfl, State.peek_store_same hram s.a, fun a ha => State.peek_store_other ha.symm s.a, hlayout, rfl, rfl⟩
  case rom =>
    rw [busWrite_rom hres hb]
    rfl
  case io =>
    rw [busWrite_io hres hb]
    rfl
  case unmapped =>
    rw [busWrite_unmapped (by simpa [State.mapped] using hm)]
    rfl

/-! ## Stack instructions (R167 to R174) -/

theorem pushByte_setPc (v : Byte) (pc : Word) (s : State) :
    pushByte v (s.setPc pc) = (pushByte v s).bind fun _ t => .done () (t.setPc pc) := by
  simp only [pushByte_eq, State.setPc_sp, busWrite_setPc, Bus.bind_assoc, Bus.bind_done]
  rfl

theorem pullByte_setPc (pc : Word) (s : State) :
    pullByte (s.setPc pc) = (pullByte s).bind fun v t => .done v (t.setPc pc) := by
  simp only [pullByte_eq, State.setPc_sp, busRead_setPc, Bus.bind_assoc, Bus.bind_done]
  rfl

theorem pushWord_setPc (w pc : Word) (s : State) :
    pushWord w (s.setPc pc) = (pushWord w s).bind fun _ t => .done () (t.setPc pc) := by
  simp only [pushWord, pushByte_setPc, Bus.bind_assoc, Bus.bind_done]

theorem pullWord_setPc (pc : Word) (s : State) :
    pullWord (s.setPc pc) = (pullWord s).bind fun w t => .done w (t.setPc pc) := by
  simp only [pullWord, pullByte_setPc, Bus.bind_assoc, Bus.bind_done]

/-- Settles O40: either row is a push of its byte and then the write of PC. -/
theorem pushInstructionResults : Obligations.PushInstructionResults := by
  intro i v s hi hfree
  have hroom : roomFor 1 s := roomFor_free (n := 1) hfree
  have hexec : exec i s = ((pushByte v s).bind fun _ t => .done () (t.setPc (s.pc + 1))).toOutcome := by
    rw [← pushByte_setPc]
    rcases hi with ⟨rfl, rfl⟩ | ⟨rfl, rfl⟩ <;> exact exec_demo_room rfl hroom
  rw [hexec]
  refine ⟨fun hm => ?mapped, fun hram => ?ram, fun hm => ?unmapped⟩
  case mapped =>
    obtain ⟨u, hu, hpush⟩ := pushByte_mapped (v := v) hm
    refine ⟨u, hu, ?_⟩
    rw [hpush]
    rfl
  case ram =>
    obtain ⟨t, ht⟩ : ∃ t, pushByte v s = .done () t := ⟨_, pushByte_ram hram⟩
    rw [ht]
    have hslot := pushByte_ram_peek_slot hram ht
    have hother := fun a ha => pushByte_peek_other (a := a) ht ha
    have hsp := pushByte_sp ht
    exact ⟨_, rfl, hslot, hother, hsp, rfl, congrArg (State.setPc s.pc) (pushByte_ram_frame hram ht)⟩
  case unmapped =>
    rw [pushByte_unmapped hm]
    rfl

/-- Settles O41: either row is a pull and then the row's own writes. -/
theorem pullInstructionResults : Obligations.PullInstructionResults := by
  intro s hused
  have hroom : roomFor (-1) s := roomFor_used (n := 1) hused
  have hpla : exec .pla s = ((pullByte s).bind fun v t => .done () (loadA v (t.setPc (s.pc + 1)))).toOutcome := by
    rw [exec_demo_room (i := .pla) rfl hroom, demoEffect, pullByte_setPc, Bus.bind_assoc]
    rfl
  have hplp : exec .plp s =
      ((pullByte s).bind fun v t => .done () ((t.setPc (s.pc + 1)).setFlags (unpack v))).toOutcome := by
    rw [exec_demo_room (i := .plp) rfl hroom, demoEffect, pullByte_setPc, Bus.bind_assoc]
    rfl
  rw [hpla, hplp]
  refine ⟨fun v hv => ?plain, fun hm => ?mapped, fun hm => ?unmapped⟩
  case plain =>
    rw [pullByte_of_peek hv]
    exact ⟨rfl, rfl⟩
  case mapped =>
    obtain ⟨v, u, hu, hpull⟩ := pullByte_mapped hm
    refine ⟨v, u, hu, ?_⟩
    rw [hpull, busRead_events hu]
    exact ⟨rfl, rfl⟩
  case unmapped =>
    rw [pullByte_unmapped hm]
    exact ⟨rfl, rfl⟩

/-- A covered slot takes a byte. -/
theorem pushByte_completes {v : Byte} {s : State} (hm : s.mapped (stackAddr s.sp)) :
    ∃ t, pushByte v s = .done () t := by
  obtain ⟨_, _, ht⟩ := pushByte_mapped (v := v) hm
  exact ⟨_, ht⟩

/-- A covered slot gives a byte. -/
theorem pullByte_completes {s : State} (hm : s.mapped (stackAddr (s.sp + 1))) : ∃ v t, pullByte s = .done v t := by
  obtain ⟨v, _, _, ht⟩ := pullByte_mapped hm
  exact ⟨v, _, ht⟩

/-- Two covered slots take a word. -/
theorem pushWord_mapped {w : Word} {s : State} (hhi : s.mapped (stackAddr s.sp))
    (hlo : s.mapped (stackAddr (s.sp - 1))) : ∃ t, pushWord w s = .done () t := by
  obtain ⟨u, hu⟩ := pushByte_completes (v := hiByte w) hhi
  obtain ⟨t, ht⟩ := pushByte_completes (v := loByte w) (s := u) (by rwa [pushByte_sp hu, pushByte_mapped_after hu])
  exact ⟨t, by rw [pushWord, hu, Bus.bind_done, ht]⟩

theorem pullByte_sp {v : Byte} {s t : State} (h : pullByte s = .done v t) : t.sp = s.sp + 1 := by
  rw [pullByte_frame h, State.setSp_sp]

theorem pullByte_mapped_after {v : Byte} {s t : State} {a : Word} (h : pullByte s = .done v t) :
    t.mapped a ↔ s.mapped a := ((pullByte_from s).later h).mapped a

/-- Two covered slots give a word. -/
theorem pullWord_mapped {s : State} (hlo : s.mapped (stackAddr (s.sp + 1))) (hhi : s.mapped (stackAddr (s.sp + 2))) :
    ∃ w t, pullWord s = .done w t := by
  obtain ⟨l, u, hu⟩ := pullByte_completes hlo
  have htwo : u.sp + 1 = s.sp + 2 := by rw [pullByte_sp hu, BitVec.add_assoc]; rfl
  obtain ⟨h, t, ht⟩ := pullByte_completes (s := u) (by rwa [pullByte_mapped_after hu, htwo])
  exact ⟨joinBytes h l, t, by rw [pullWord, hu, Bus.bind_done, ht, Bus.bind_done]⟩

/-- Settles O43: the row is a push of the address before the next instruction's and then the write of PC. -/
theorem subroutineCallResult : Obligations.SubroutineCallResult := by
  intro w s hfree
  have hroom : roomFor 2 s := roomFor_free (n := 2) hfree
  have hexec : exec (.jsrAbs w) s = ((pushWord (s.pc + 2) s).bind fun _ t => .done () (t.setPc w)).toOutcome := by
    have hlast : codeAddr s.pc 3 - 1 = s.pc + 2 := by
      simp only [codeAddr]
      bv_omega
    rw [exec_demo_room (i := .jsrAbs w) rfl hroom, demoEffect, pushWord_setPc, Bus.bind_assoc]
    exact congrArg (fun v => ((pushWord v s).bind fun _ t => .done () (t.setPc w)).toOutcome) hlast
  rw [hexec]
  refine ⟨fun hhi hlo => ?mapped, fun hhi hlo => ?ram⟩
  case mapped =>
    obtain ⟨u, hu⟩ := pushWord_mapped hhi hlo
    exact ⟨u, hu, by rw [hu]; rfl⟩
  case ram =>
    obtain ⟨t, ht, hhigh, hlow, hother, -, hrest, hsp⟩ := pushWordStoresHighThenLow.2.2 (s.pc + 2) s hhi hlo
    rw [ht]
    exact ⟨_, rfl, hhigh, hlow, hother, rfl, hsp, congrArg (State.setPc s.pc) hrest⟩

theorem pullByte_setFlags (f : Flags) (s : State) :
    pullByte (s.setFlags f) = (pullByte s).bind fun v t => .done v (t.setFlags f) := by
  simp only [pullByte_eq, State.setFlags_sp, busRead_setFlags, Bus.bind_assoc, Bus.bind_done]
  rfl

theorem pullWord_setFlags (f : Flags) (s : State) :
    pullWord (s.setFlags f) = (pullWord s).bind fun w t => .done w (t.setFlags f) := by
  simp only [pullWord, pullByte_setFlags, Bus.bind_assoc, Bus.bind_done]

/-- The return (R213) is its two pulls and then its writes. -/
theorem returnFromInterrupt_eq (s : State) :
    returnFromInterrupt s =
      (pullByte s).bind fun f u => (pullWord u).bind fun w t => .done () ((t.setFlags (unpack f)).setPc w) := by
  simp only [returnFromInterrupt, pullWord_setFlags, Bus.bind_assoc, Bus.bind_done]

/-- Three covered slots give a byte and a word. -/
theorem pullFrame_mapped {s : State} (hm₁ : s.mapped (stackAddr (s.sp + 1))) (hm₂ : s.mapped (stackAddr (s.sp + 2)))
    (hm₃ : s.mapped (stackAddr (s.sp + 3))) : ∃ f u w t, pullByte s = .done f u ∧ pullWord u = .done w t := by
  obtain ⟨f, u, hu⟩ := pullByte_completes hm₁
  have htwo : u.sp + 1 = s.sp + 2 := by rw [pullByte_sp hu, BitVec.add_assoc]; rfl
  have hthree : u.sp + 2 = s.sp + 3 := by rw [pullByte_sp hu, BitVec.add_assoc]; rfl
  obtain ⟨w, t, ht⟩ := pullWord_mapped (s := u) (by rwa [pullByte_mapped_after hu, htwo])
    (by rwa [pullByte_mapped_after hu, hthree])
  exact ⟨f, u, w, t, hu, ht⟩

/-- On plain memory a byte and a word are pulled from the three slots above SP. -/
theorem pullFrame_of_peek {f l h : Byte} {s : State} (hf : s.peek (stackAddr (s.sp + 1)) = some f)
    (hl : s.peek (stackAddr (s.sp + 2)) = some l) (hh : s.peek (stackAddr (s.sp + 3)) = some h) :
    pullByte s = .done f (s.setSp (s.sp + 1)) ∧
      pullWord (s.setSp (s.sp + 1)) = .done (joinBytes h l) (s.setSp (s.sp + 3)) := by
  have htwo : s.sp + 1 + 1 = s.sp + 2 := BitVec.add_assoc ..
  have hthree : s.sp + 1 + 2 = s.sp + 3 := BitVec.add_assoc ..
  refine ⟨pullByte_of_peek hf, ?_⟩
  rw [pullWord_of_peek (l := l) (h := h) (by rwa [State.setSp_sp, State.peek_setSp, htwo])
    (by rwa [State.setSp_sp, State.peek_setSp, hthree]), State.setSp_sp, hthree]
  rfl

/-- Settles O44: RTS is a pull of a word, RTI a pull of the status and then of a word, each then writing PC. -/
theorem returnResults : Obligations.ReturnResults := by
  refine fun s => ⟨fun hused => ?rts, fun hused => ?rti⟩
  case rts =>
    have hexec : exec .rts s = ((pullWord s).bind fun w t => .done () (t.setPc (w + 1))).toOutcome := by
      rw [exec_demo_room (i := .rts) rfl (roomFor_used (n := 2) hused), demoEffect, pullWord_setPc, Bus.bind_assoc]
      rfl
    rw [hexec]
    refine ⟨fun l h hl hh => ?_, fun hlo hhi => ?_⟩
    · rw [pullWord_of_peek hl hh]
      rfl
    · obtain ⟨w, u, hu⟩ := pullWord_mapped hlo hhi
      exact ⟨w, u, hu, by rw [hu]; rfl⟩
  case rti =>
    have hexec : exec .rti s = ((pullByte s).bind fun f u => (pullWord u).bind fun w t =>
        .done () ((t.setFlags (unpack f)).setPc w)).toOutcome := by
      rw [exec_demo_room (i := .rti) rfl (roomFor_used (n := 3) hused), demoEffect, returnFromInterrupt_eq,
        pullByte_setPc]
      simp only [pullWord_setPc, Bus.bind_assoc, Bus.bind_done]
      rfl
    rw [hexec]
    refine ⟨fun f l h hf hl hh => ?_, fun hm₁ hm₂ hm₃ => ?_⟩
    · obtain ⟨hbyte, hword⟩ := pullFrame_of_peek hf hl hh
      rw [hbyte, Bus.bind_done, hword]
      rfl
    · obtain ⟨f, u, w, t, hu, ht⟩ := pullFrame_mapped hm₁ hm₂ hm₃
      exact ⟨f, u, w, t, hu, ht, by rw [hu, Bus.bind_done, ht]; rfl⟩

end Sys2Proof.Machine
end

section
/-! SUPPORT. When a row of `DEMO` completes or raises an error, and what it leaves alone (R103, R142, R150 to R176). -/

namespace Sys2Proof.Machine

/-! ## Completion and errors -/

/-- Addresses named in the state before and after PC is advanced are the same. -/
theorem stored_loaded_setPc (i : Instr) (pc : Word) (s : State) :
    storedAddrs i (s.setPc pc) = storedAddrs i s ∧ loadedAddrs i (s.setPc pc) = loadedAddrs i s := by
  cases i <;> exact ⟨rfl, rfl⟩

/-- An effect completes when the addresses it loads from and stores to are covered. -/
theorem demoEffect_completes {i : Instr} {s : State} (hm : ∀ a ∈ loadedAddrs i s ++ storedAddrs i s, s.mapped a) :
    ∃ t, demoEffect i s = .done () t := by
  have hload : ∀ a, s.mapped a → ∃ t, loadFrom a s = .done () t := fun a ha => by
    obtain ⟨v, t, ht⟩ := busRead_mapped ha
    exact ⟨_, by rw [loadFrom, ht, Bus.bind_done]⟩
  have hpull : ∀ k : Byte → State → State, s.mapped (stackAddr (s.sp + 1)) →
      ∃ t, ((pullByte s).bind fun v u => .done () (k v u)) = .done () t := fun k ha => by
    obtain ⟨v, u, hu⟩ := pullByte_completes ha
    exact ⟨_, by rw [hu, Bus.bind_done]⟩
  cases i
  case ldaZp | ldaAbs => exact hload _ (hm _ (by simp [loadedAddrs]))
  case staZp | staAbs => exact busWrite_mapped (hm _ (by simp [storedAddrs]))
  case pha | php => exact pushByte_completes (hm _ (by simp [storedAddrs]))
  case pla | plp => exact hpull _ (hm _ (by simp [loadedAddrs]))
  case jsrAbs w =>
    obtain ⟨u, hu⟩ := pushWord_mapped (w := s.pc - 1) (hm _ (by simp [storedAddrs])) (hm _ (by simp [storedAddrs]))
    exact ⟨_, by rw [demoEffect, hu, Bus.bind_done]⟩
  case rts =>
    obtain ⟨w, u, hu⟩ := pullWord_mapped (hm (stackAddr (s.sp + 1)) (by simp [loadedAddrs]))
      (hm (stackAddr (s.sp + 2)) (by simp [loadedAddrs]))
    exact ⟨_, by rw [demoEffect, hu, Bus.bind_done]⟩
  case rti =>
    obtain ⟨f, u, w, t, hu, ht⟩ := pullFrame_mapped (s := s) (hm _ (by simp [loadedAddrs]))
      (hm _ (by simp [loadedAddrs])) (hm _ (by simp [loadedAddrs]))
    exact ⟨_, by rw [demoEffect, returnFromInterrupt_eq, hu, Bus.bind_done, ht, Bus.bind_done]⟩
  all_goals exact ⟨_, rfl⟩

/-- Settles O45: the row runs, and its effect completes. -/
theorem demoRowsComplete : Obligations.DemoRowsComplete := by
  intro i s hi hroom hm
  obtain ⟨hstored, hloaded⟩ := stored_loaded_setPc i (codeAddr s.pc i.length) s
  obtain ⟨t, ht⟩ := demoEffect_completes (i := i) (s := s.setPc (codeAddr s.pc i.length)) (by rwa [hstored, hloaded])
  exact ⟨t, by rw [exec_demo_room hi hroom, ht, Bus.toOutcome_done]⟩

/-- A row of `DEMO` raises the strict check's error and no other. -/
theorem exec_demo_eq_raised {i : Instr} (hi : isDemoRow i = true) {s t : State} {e : CoreError} :
    exec i s = .fault (.raised e t) ↔ t = s ∧ stackCheck (demoHeadroom i) s = some e := by
  rw [exec_demo hi]
  cases hcheck : stackCheck (demoHeadroom i) s with
  | some e' => simp [runInstr_stop hcheck, and_comm, eq_comm]
  | none => simp [runInstr_room (stackCheck_eq_none.mp hcheck), Bus.toOutcome_ne_raised]

/-- Settles O46: the errors of the strict check one by one. -/
theorem demoRowsTrapOnlyInStrictMode : Obligations.DemoRowsTrapOnlyInStrictMode := by
  intro i s hi e t
  rw [exec_demo_eq_raised hi]
  refine and_congr_right fun _ => ?_
  cases e with
  | unimplementedInstruction => simp [stackCheck_ne_unimplemented]
  | stackOverflow => simp [stackCheck_eq_overflow]
  | stackUnderflow => simp [stackCheck_eq_underflow]

/-! ## Memory and history -/

/-- A pull of a word moves SP and, on an I/O region, adds to the history: nothing else. -/
theorem pullWord_frame {w : Word} {s t : State} (h : pullWord s = .done w t) :
    t = (s.setEvents t.events).setSp (s.sp + 1 + 1) := by
  obtain ⟨l, u, hu, h⟩ := Bus.bind_eq_done.mp h
  obtain ⟨b, u', hu', h⟩ := Bus.bind_eq_done.mp h
  cases h
  rw [pullByte_frame hu', pullByte_frame hu]
  rfl

/-- A row that stores nothing leaves the regions as they were. -/
theorem demoEffect_regions {i : Instr} {s t : State} (hnone : storedAddrs i s = []) (h : demoEffect i s = .done () t) :
    t.regions = s.regions := by
  have hload : ∀ {a}, loadFrom a s = .done () t → t.regions = s.regions := fun h => by
    obtain ⟨v, u, hu, h⟩ := Bus.bind_eq_done.mp h
    cases h
    exact (busRead_regions hu :)
  cases i
  case staZp | staAbs | pha | php | jsrAbs => cases hnone
  case ldaZp | ldaAbs => exact hload h
  case pla | plp =>
    obtain ⟨v, u, hu, h⟩ := Bus.bind_eq_done.mp h
    cases h
    rw [pullByte_frame hu]
    rfl
  case rts =>
    obtain ⟨w, u, hu, h⟩ := Bus.bind_eq_done.mp h
    cases h
    rw [pullWord_frame hu]
    rfl
  case rti =>
    rw [demoEffect, returnFromInterrupt_eq] at h
    obtain ⟨f, u, hu, h⟩ := Bus.bind_eq_done.mp h
    obtain ⟨w, u', hu', h⟩ := Bus.bind_eq_done.mp h
    cases h
    rw [pullWord_frame hu', pullByte_frame hu]
    rfl
  case bneRel b | beqRel b =>
    cases h
    unfold branchIf
    split <;> rfl
  all_goals
    cases h
    rfl

/-- A row changes no byte but those it stores to. -/
theorem demoEffect_peek {i : Instr} {s t : State} (h : demoEffect i s = .done () t) {a : Word}
    (ha : a ∉ storedAddrs i s) : t.peek a = s.peek a := by
  cases i
  case staZp | staAbs => exact busWrite_peek_other h (Ne.symm (by simpa [storedAddrs] using ha))
  case pha | php => exact pushByte_peek_other h (by simpa [storedAddrs] using ha)
  case jsrAbs w =>
    obtain ⟨hhi, hlo⟩ : a ≠ stackAddr s.sp ∧ a ≠ stackAddr (s.sp - 1) := by simpa [storedAddrs] using ha
    obtain ⟨_, u, hu, h⟩ := Bus.bind_eq_done.mp h
    obtain ⟨_, u', hu', hu⟩ := Bus.bind_eq_done.mp hu
    cases h
    rw [State.peek_setPc, pushByte_peek_other hu (pushByte_sp hu' ▸ hlo), pushByte_peek_other hu' hhi]
  all_goals exact State.peek_congr (demoEffect_regions rfl h) a

/-- A write to plain memory makes no I/O (R44, R45). -/
theorem busWrite_events_of_peek {a : Word} {v b : Byte} {s t : State} (hpeek : s.peek a = some b)
    (h : busWrite a v s = .done () t) : t.events = s.events := by
  rcases busWrite_cases a v s with ⟨_, hd⟩ | ⟨_, hd⟩ | ⟨_, _, _, _, hd⟩ | ⟨r, handle, _, _, hres, hb, _⟩
  · exact nomatch hd.symm.trans h
  · cases hd.symm.trans h
    rfl
  · cases hd.symm.trans h
    rfl
  · simp [State.peek, hres, Region.isPlain, hb] at hpeek

theorem pushByte_events_of_peek {v b : Byte} {s t : State} (hpeek : s.peek (stackAddr s.sp) = some b)
    (h : pushByte v s = .done () t) : t.events = s.events := by
  rw [pushByte_eq] at h
  obtain ⟨_, u, hu, h⟩ := Bus.bind_eq_done.mp h
  cases h
  exact (busWrite_events_of_peek hpeek hu :)

/-- Where all its addresses are plain memory a row makes no I/O. -/
theorem demoEffect_events {i : Instr} {s t : State} (h : demoEffect i s = .done () t)
    (hplain : ∀ a ∈ loadedAddrs i s ++ storedAddrs i s, ∃ v, s.peek a = some v) : t.events = s.events := by
  have hload : ∀ {a v}, s.peek a = some v → loadFrom a s = .done () t → t.events = s.events := fun hv h => by
    rw [loadFrom, busRead_of_peek hv] at h
    cases h
    rfl
  cases i
  case ldaZp | ldaAbs =>
    obtain ⟨v, hv⟩ := hplain _ List.mem_cons_self
    exact hload hv h
  case staZp | staAbs =>
    obtain ⟨v, hv⟩ := hplain _ List.mem_cons_self
    exact busWrite_events_of_peek hv h
  case pha | php =>
    obtain ⟨v, hv⟩ := hplain _ List.mem_cons_self
    exact pushByte_events_of_peek hv h
  case pla | plp =>
    obtain ⟨v, hv⟩ := hplain (stackAddr (s.sp + 1)) (by simp [loadedAddrs])
    rw [demoEffect, pullByte_of_peek hv] at h
    cases h
    rfl
  case jsrAbs w =>
    obtain ⟨v, hv⟩ := hplain (stackAddr s.sp) (by simp [storedAddrs])
    obtain ⟨v', hv'⟩ := hplain (stackAddr (s.sp - 1)) (by simp [storedAddrs])
    obtain ⟨_, u, hu, h⟩ := Bus.bind_eq_done.mp h
    obtain ⟨_, u', hu', hu⟩ := Bus.bind_eq_done.mp hu
    cases h
    have hkeep : u'.peek (stackAddr u'.sp) = some v' := by
      rw [pushByte_sp hu', pushByte_peek_other hu' (stackAddr_ne_pred s.sp).symm, hv']
    exact (pushByte_events_of_peek hkeep hu).trans (pushByte_events_of_peek hv hu')
  case rts =>
    obtain ⟨l, hl⟩ := hplain (stackAddr (s.sp + 1)) (by simp [loadedAddrs])
    obtain ⟨b, hb⟩ := hplain (stackAddr (s.sp + 2)) (by simp [loadedAddrs])
    rw [demoEffect, pullWord_of_peek hl hb] at h
    cases h
    rfl
  case rti =>
    obtain ⟨f, hf⟩ := hplain (stackAddr (s.sp + 1)) (by simp [loadedAddrs])
    obtain ⟨l, hl⟩ := hplain (stackAddr (s.sp + 2)) (by simp [loadedAddrs])
    obtain ⟨b, hb⟩ := hplain (stackAddr (s.sp + 3)) (by simp [loadedAddrs])
    obtain ⟨hbyte, hword⟩ := pullFrame_of_peek hf hl hb
    rw [demoEffect, returnFromInterrupt_eq, hbyte, Bus.bind_done, hword] at h
    cases h
    rfl
  case bneRel b | beqRel b =>
    cases h
    unfold branchIf
    split <;> rfl
  all_goals
    cases h
    rfl

/-- A completed row is its effect, from the state with PC advanced. -/
theorem exec_demo_next {i : Instr} {s t : State} (hi : isDemoRow i = true) (h : exec i s = .next t) :
    demoEffect i (s.setPc (codeAddr s.pc i.length)) = .done () t := by
  rw [exec_demo hi] at h
  exact (runInstr_next h).2

/-- Settles O47: each clause is the effect's; advancing PC changes neither memory nor the addresses named. -/
theorem demoMemoryFrame : Obligations.DemoMemoryFrame := by
  intro i s t hi h
  have heffect := exec_demo_next hi h
  obtain ⟨hstored, hloaded⟩ := stored_loaded_setPc i (codeAddr s.pc i.length) s
  have hcontrols := ((demoEffect_from _ _).later heffect).controls
  have hregions := fun hnone => demoEffect_regions (hstored.trans hnone) heffect
  have hevents := demoEffect_events heffect
  rw [hstored, hloaded] at hevents
  exact ⟨fun a ha => demoEffect_peek heffect (hstored.symm ▸ ha), hregions,
    ⟨hcontrols.strict, hcontrols.trace, hcontrols.optab, hcontrols.layout⟩, hevents⟩

/-! ## Registers and flags -/

/-- The registers a row of `DEMO` leaves, with `v` the byte and `w` the word its reads answered, from those with PC
past the instruction. -/
def demoRegs (v : Byte) (w : Word) (r : Regs) : Instr → Regs
  | .ldaImm b => { r with a := b, flags := r.flags.setZN b }
  | .ldxImm b => { r with x := b, flags := r.flags.setZN b }
  | .ldyImm b => { r with y := b, flags := r.flags.setZN b }
  | .ldaZp _ | .ldaAbs _ => { r with a := v, flags := r.flags.setZN v }
  | .tax => { r with x := r.a, flags := r.flags.setZN r.a }
  | .txs => { r with sp := r.x }
  | .tsx => { r with x := r.sp, flags := r.flags.setZN r.sp }
  | .inx => { r with x := r.x + 1, flags := r.flags.setZN (r.x + 1) }
  | .dex => { r with x := r.x - 1, flags := r.flags.setZN (r.x - 1) }
  | .clc => { r with flags := r.flags.set .c false }
  | .sec => { r with flags := r.flags.set .c true }
  | .cli => { r with flags := r.flags.set .i false }
  | .sei => { r with flags := r.flags.set .i true }
  | .pha | .php => { r with sp := r.sp - 1 }
  | .pla => { r with a := v, sp := r.sp + 1, flags := r.flags.setZN v }
  | .plp => { r with sp := r.sp + 1, flags := unpack v }
  | .jmpAbs u => { r with pc := u }
  | .jsrAbs u => { r with pc := u, sp := r.sp - 1 - 1 }
  | .rts => { r with pc := w + 1, sp := r.sp + 1 + 1 }
  | .rti => { r with pc := w, sp := r.sp + 1 + 1 + 1, flags := unpack v }
  | .bneRel b => { r with pc := if r.flags.z then r.pc else relativeTarget r.pc b }
  | .beqRel b => { r with pc := if r.flags.z then relativeTarget r.pc b else r.pc }
  | .staZp _ | .staAbs _ | .nop | .f1 _ | .f2 _ _ | .f3 _ _ | .illegal _ => r

theorem busWrite_regs {a : Word} {v : Byte} {s t : State} (h : busWrite a v s = .done () t) : t.regs = s.regs := by
  rcases busWrite_frame h with rfl | rfl | ⟨_, _, rfl⟩ <;> rfl

theorem pushByte_regs {v : Byte} {s t : State} (h : pushByte v s = .done () t) :
    t.regs = { s.regs with sp := s.sp - 1 } := by
  rw [pushByte_eq] at h
  obtain ⟨_, u, hu, h⟩ := Bus.bind_eq_done.mp h
  cases h
  rw [← busWrite_regs hu]
  rfl

/-- The registers a row leaves are a function of those before it and of the answers of its reads. -/
theorem demoEffect_regs {i : Instr} {s t : State} (h : demoEffect i s = .done () t) :
    ∃ v w, t.regs = demoRegs v w s.regs i := by
  have hload : ∀ {a}, loadFrom a s = .done () t → ∃ v, t.regs = { s.regs with a := v, flags := s.flags.setZN v } :=
    fun h => by
      obtain ⟨v, u, hu, h⟩ := Bus.bind_eq_done.mp h
      cases h
      rw [busRead_events hu]
      exact ⟨v, rfl⟩
  cases i
  case ldaZp | ldaAbs =>
    obtain ⟨v, hv⟩ := hload h
    exact ⟨v, 0, hv⟩
  case staZp | staAbs => exact ⟨0, 0, busWrite_regs h⟩
  case pha | php => exact ⟨0, 0, pushByte_regs h⟩
  case pla | plp =>
    obtain ⟨v, u, hu, h⟩ := Bus.bind_eq_done.mp h
    cases h
    rw [pullByte_frame hu]
    exact ⟨v, 0, rfl⟩
  case jsrAbs w =>
    obtain ⟨_, u, hu, h⟩ := Bus.bind_eq_done.mp h
    obtain ⟨_, u', hu', hu⟩ := Bus.bind_eq_done.mp hu
    cases h
    have hregs : u.regs = { s.regs with sp := s.sp - 1 - 1 } := by
      rw [pushByte_regs hu, pushByte_regs hu', pushByte_sp hu']
    exact ⟨0, 0, congrArg (fun r : Regs => { r with pc := w }) hregs⟩
  case rts =>
    obtain ⟨w, u, hu, h⟩ := Bus.bind_eq_done.mp h
    cases h
    rw [pullWord_frame hu]
    exact ⟨0, w, rfl⟩
  case rti =>
    rw [demoEffect, returnFromInterrupt_eq] at h
    obtain ⟨f, u, hu, h⟩ := Bus.bind_eq_done.mp h
    obtain ⟨w, u', hu', h⟩ := Bus.bind_eq_done.mp h
    cases h
    rw [pullWord_frame hu', pullByte_frame hu]
    exact ⟨f, w, rfl⟩
  case bneRel b | beqRel b =>
    cases h
    refine ⟨0, 0, ?_⟩
    cases hz : s.flags.z <;> simp [branchIf, demoRegs, State.regs, hz]
  all_goals
    cases h
    exact ⟨0, 0, rfl⟩

/-- Settles O48: the registers after are those `demoRegs` gives, row by row. -/
theorem demoRegisterFrame : Obligations.DemoRegisterFrame := by
  intro i s t hi h
  obtain ⟨v, w, hregs⟩ := demoEffect_regs (exec_demo_next hi h)
  have ha : t.a = _ := congrArg Regs.a hregs
  have hx : t.x = _ := congrArg Regs.x hregs
  have hy : t.y = _ := congrArg Regs.y hregs
  have hsp : t.sp = _ := congrArg Regs.sp hregs
  have hflags : t.flags = _ := congrArg Regs.flags hregs
  rw [ha, hx, hy, hsp, hflags]
  cases i <;> simp [demoRegs, State.regs, Flags.setZN, Flags.set]

end Sys2Proof.Machine
end

section
/-! SUPPORT. The operations of the host (00_scope.md R3): what each can do, the invariant, `init` and the launch, and
the return from an interrupt (R19, R20, R41, R206, R213, R240). -/

namespace Sys2Proof.Machine

/-! ## What an operation of the host can do -/

theorem Region.wf_ram_nil (start : Word) (length : Nat) : ({ start, length, backing := .ram [] } : Region).wf :=
  ⟨Memory.wf_nil, nofun⟩

theorem Region.wf_io (start : Word) (length handle readFn writeFn : Nat) :
    ({ start, length, backing := .io handle readFn writeFn } : Region).wf := ⟨Memory.wf_nil, nofun⟩

theorem Region.wf_rom_ofBytes (start : Word) (length : Nat) (bytes : List Byte) :
    ({ start, length, backing := .rom (Memory.ofBytes 0 (bytes.take length)) } : Region).wf := by
  refine ⟨Memory.wf_ofBytes _ _, fun c hc => ?_⟩
  obtain ⟨-, hlt, -⟩ := Memory.mem_ofBytes hc
  rw [Nat.zero_add] at hlt
  exact hlt.trans_le (List.length_take_le _ _)

/-- The operations that register a region (R46 to R49). -/
def HostOp.registers (op : HostOp) : Prop :=
  (∃ a n, op = .addRam a n) ∨ (∃ a n bs, op = .addRomData a n bs) ∨ (∃ a im, op = .addRomFile a im) ∨
    ∃ a n h f g, op = .addIo a n h f g

/-- What a completed operation of the host can have done: bus accesses and register writes, or nothing; `init`; a
control's bit written; a region registered. -/
inductive HostEffect : HostOp → State → State → Prop where
  | later {op : HostOp} {s t : State} (h : Later s t) : HostEffect op s t
  | init (s : State) : HostEffect .init s (initCore s)
  | setStrict (b : Bool) (s : State) : HostEffect (.setStrict b) s (s.setStrict b)
  | setTrace (b : Bool) (s : State) : HostEffect (.setTrace b) s (s.setTrace b)
  | register {op : HostOp} {r : Region} (hop : op.registers) (hr : r.wf) (s : State) : HostEffect op s (register r s)

theorem interrupt_later {vector : Word} {s t : State} (h : interrupt vector s = .next t) : Later s t := by
  rcases interrupt_cases vector s with ⟨_, hd⟩ | ⟨_, hd⟩
  · exact nomatch hd.symm.trans h
  · obtain ⟨_, hv⟩ := Bus.toOutcome_eq_next.mp (hd.symm.trans h)
    exact (enterInterrupt_from _ _).later hv

theorem perform_effect {op : HostOp} {s t : State} (h : perform op s = .next t) : HostEffect op s t := by
  cases op with
  | init =>
    cases h
    exact .init s
  | setStrict b =>
    cases h
    exact .setStrict b s
  | setTrace b =>
    cases h
    exact .setTrace b s
  | addRam start length =>
    cases h
    exact .register (.inl ⟨_, _, rfl⟩) (Region.wf_ram_nil start length) s
  | addRomData start length bytes =>
    rw [perform] at h
    split at h
    · cases h
      exact .register (.inr (.inl ⟨_, _, _, rfl⟩)) (Region.wf_rom_ofBytes start length bytes) s
    · cases h
  | addRomFile start image =>
    cases h
    unfold addRomFile
    split
    · exact .later (.refl s)
    · rename_i bytes
      split
      · exact .register (.inr (.inr (.inl ⟨_, _, rfl⟩))) (Region.wf_rom_ofBytes start bytes.length bytes) s
      · exact .later (.refl s)
  | addIo start length handle readFn writeFn =>
    cases h
    exact .register (.inr (.inr (.inr ⟨_, _, _, _, _, rfl⟩))) (Region.wf_io start length handle readFn writeFn) s
  | reset =>
    obtain ⟨_, hv⟩ := Bus.toOutcome_eq_next.mp h
    exact .later ((resetCore_from s).later hv)
  | irq | nmi => exact .later (interrupt_later h)
  | step => exact .later (step_later h)

/-- Settles O58: a registered region's buffer is canonical and inside it; `init` leaves no region; the rest is made of
bus accesses and register writes, or writes a control's bit. -/
theorem hostOperationsKeepTheInvariant : Obligations.HostOperationsKeepTheInvariant := by
  intro op s t hs h
  obtain ⟨hregions, htable⟩ := hs
  cases perform_effect h with
  | later hlater => exact hlater.wf ⟨hregions, htable⟩
  | init => exact ⟨nofun, htable⟩
  | setStrict b => exact ⟨hregions, htable⟩
  | setTrace b => exact ⟨hregions, htable⟩
  | register hop hr => exact ⟨List.forall_mem_cons.mpr ⟨hr, hregions⟩, htable⟩

/-- Settles O54: the two controls' operations are their definitions; of the others, `init` and the registrations are
named, and bus accesses and register writes keep controls, layout and table. -/
theorem onlyTheHostWritesControls : Obligations.OnlyTheHostWritesControls := by
  refine ⟨fun _ _ => ⟨rfl, rfl⟩, fun op s t h => ?_⟩
  cases perform_effect h with
  | later hlater =>
    obtain ⟨hstrict, htrace, htable, hlayout⟩ := hlater.controls
    exact ⟨absurd hstrict, absurd htrace, absurd hlayout, htable⟩
  | init => exact ⟨fun _ => .inl rfl, fun _ => .inl rfl, fun _ => .inl rfl, rfl⟩
  | setStrict b => exact ⟨fun _ => .inr ⟨b, rfl, rfl⟩, absurd rfl, absurd rfl, rfl⟩
  | setTrace b => exact ⟨absurd rfl, fun _ => .inr ⟨b, rfl, rfl⟩, absurd rfl, rfl⟩
  | register hop hr => exact ⟨absurd rfl, absurd rfl, fun _ => .inr hop, rfl⟩

/-! ## `init` and the launch (R240, R244) -/

/-- Settles O56: the one region's buffer lists nothing, and the table is `DEMO`. -/
theorem resetMeetsTheInvariant : Obligations.ResetMeetsTheInvariant :=
  ⟨List.forall_mem_singleton.mpr (Region.wf_ram_nil _ _), demoTableHasTwentySevenRows.1⟩

/-- Settles O52: no region covers an address where there is none. -/
theorem initIsAllZeroWithAnEmptyBus : Obligations.InitIsAllZeroWithAnEmptyBus := fun _ =>
  ⟨_, rfl, rfl, rfl, rfl, rfl, rfl, rfl, rfl, rfl, rfl, fun _ => busRead_unmapped rfl, rfl⟩

/-- Settles O53: `reset` reads its vector, 0x0000, from the zeroed RAM that `add_ram` has put behind it. -/
theorem launchLeavesTheResetState : Obligations.LaunchLeavesTheResetState := by
  intro s htable
  have hreset : resetCore (addRam 0 65536 (initCore s)) =
      .done () ((addRam 0 65536 (initCore s)).afterReset (joinBytes 0 0)) := resetCore_of_peek rfl rfl
  have hlaunch : (addRam 0 65536 (initCore s)).afterReset (joinBytes 0 0) = State.reset.setEvents s.events :=
    State.eq_of_fields rfl rfl rfl rfl rfl rfl rfl rfl rfl htable rfl
  simp only [performAll, perform, hreset, Bus.toOutcome_done, hlaunch]

/-! ## The return from an interrupt (R213) -/

/-- Settles O50: the interrupt leaves its frame in the three slots above the new SP, where RTI pulls it from. -/
theorem returnUndoesInterrupt : Obligations.ReturnUndoesInterrupt := by
  intro op vector s l h hop hroom hhi hlo hbyte hl hh
  obtain ⟨hperform, hv, hv'⟩ := perform_interrupt hop
  obtain ⟨t, hframe, -, hd⟩ := enterInterrupt_ram hhi hlo hbyte hv hv' hl hh
  have hthree : t.sp + 3 = s.sp := by rw [hframe.sp, BitVec.sub_add_cancel]
  have hstatus : t.peek (stackAddr (t.sp + 1)) = some (pack s.flags) := by
    rw [show t.sp + 1 = s.sp - 2 by bv_omega, hframe.byte]
  have hlow : t.peek (stackAddr (t.sp + 2)) = some (loByte s.pc) := by
    rw [show t.sp + 2 = s.sp - 1 by bv_omega, hframe.low]
  have hhigh : t.peek (stackAddr (t.sp + 3)) = some (hiByte s.pc) := by rw [hthree, hframe.high]
  have hstrict : t.strict = s.strict := (congrArg State.strict hframe.rest :)
  have hused : t.strict = true → 3 ≤ 255 - t.sp.toNat := fun hs => by
    have hsp : ¬s.sp.toNat < 3 := fun hfew => hroom ⟨hstrict ▸ hs, hfew⟩
    have hlt := s.sp.isLt
    rw [hframe.sp]
    bv_omega
  have hrti := ((returnResults ((t.setFlag .i true).setPc (joinBytes h l))).2 hused).1 _ _ _ hstatus hlow hhigh
  refine ⟨_, _, by rw [hperform, interrupt_of_room hroom, hd, Bus.toOutcome_done], hrti, ?rest, hframe.other⟩
  case rest =>
    rw [unpack_pack, joinBytes_hi_lo, show ((t.setFlag .i true).setPc (joinBytes h l)).sp + 3 = s.sp from hthree]
    exact congrArg (fun u => (u.setFlags s.flags).setPc s.pc) hframe.rest

end Sys2Proof.Machine
end
